-- ==== Sys2Proof/Word.lean ====
section
/-! DEFINITION. The bit widths of the block (00_scope.md R9): bytes, 32-bit register words, sextets and 7-bit table codes. -/

namespace Sys2Proof

/-- An 8-bit value 0..255 (R9). A symbol is a byte holding an ASCII code. -/
abbrev Byte := BitVec 8

/-- The width of every interface register and of the command word (R16, R48). -/
abbrev Word := BitVec 32

/-- A 6-bit value 0..63: one alphabet index (R9). -/
abbrev Sextet := BitVec 6

/-- A 7-bit ASCII code, or a 7-bit entry of the inverse table (R27). -/
abbrev Code := BitVec 7

end Sys2Proof
end

