-- ==== Sys2Proof/Syntax.lean ====
section
/-! DEFINITION. The commands of the block: one constructor per row of spec/opcode_table.json (30_encoding.md R49). -/

namespace Sys2Proof

/-- A command.  `ENCBLK` is three rows of the table (`K` = 1, 2, 3) and `DECBLK` two (`F` = 0, 1), R49.  The row
"(illegal)" stands for every other 32-bit word and carries it (R50). -/
inductive Instr where
  | alut
  | ilut
  | encblk1
  | encblk2
  | encblk3
  | encode
  | decblk0
  | decblk1
  | decode
  | enclen
  | declen
  | illegal (w : Word)
  deriving DecidableEq, Repr

end Sys2Proof
end

