-- ==== Sys2Proof/WellFormed.lean ====
section
/-! DEFINITION. Which terms of `Instr` stand for a command word: all eleven legal rows, and `illegal w` exactly when `w` is
none of their words (30_encoding.md R49, R50).  Written from the words of the table, not from the decoder. -/

namespace Sys2Proof

/-- The eleven legal command words of R49, in the table's order. -/
def legalWords : List Word :=
  [0x00000001, 0x00000002, 0x00000013, 0x00000023, 0x00000033, 0x00000004,
   0x00000005, 0x00000015, 0x00000006, 0x00000007, 0x00000008]

/-- A term is well formed when some command word decodes to it: the `illegal` row holds only words that no other row
has (R50). -/
def Instr.wf : Instr → Bool
  | .illegal w => !legalWords.contains w
  | .alut | .ilut | .encblk1 | .encblk2 | .encblk3 | .encode => true
  | .decblk0 | .decblk1 | .decode | .enclen | .declen => true

end Sys2Proof
end

