-- ==== Sys2Proof/Decode.lean ====
section
/-! DEFINITION. From a command word to a command and back (30_encoding.md R48 to R56, R60). -/

namespace Sys2Proof

/-- `OP`, bits 3:0 of the command word (R48). -/
def opField (w : Word) : BitVec 4 := w.extractLsb' 0 4

/-- `ARG`, bits 5:4 (R48). -/
def argField (w : Word) : BitVec 2 := w.extractLsb' 4 2

/-- `RSV`, bits 31:6, which must be zero (R48). -/
def rsvField (w : Word) : BitVec 26 := w.extractLsb' 6 26

/-- `illegal(w)` of R50, clause by clause. -/
def illegalWord (w : Word) : Bool :=
  rsvField w != 0
  || [0x0, 0x9, 0xA, 0xB, 0xC, 0xD, 0xE, 0xF].contains (opField w)
  || (opField w == 0x3 && argField w == 0)
  || (opField w == 0x5 && (argField w).getLsbD 1)
  || ([0x1, 0x2, 0x4, 0x6, 0x7, 0x8].contains (opField w) && argField w != 0)

/-- The case split of `execute(w)` on a legal word (R60).  `K` is `ARG` and `F` is bit 4 (R54). -/
def decodeLegal (w : Word) : Instr :=
  match (opField w).toNat with
  | 1 => .alut
  | 2 => .ilut
  | 3 =>
    match (argField w).toNat with
    | 1 => .encblk1
    | 2 => .encblk2
    | 3 => .encblk3
    | _ => .illegal w
  | 4 => .encode
  | 5 => if (argField w).getLsbD 0 then .decblk1 else .decblk0
  | 6 => .decode
  | 7 => .enclen
  | 8 => .declen
  | _ => .illegal w

/-- Decoding is total: every 32-bit word is one of the legal words or illegal (R50), and an illegal word is rejected by the
name of its row, not by a neighbour's. -/
def decodeWord (w : Word) : Instr :=
  if illegalWord w then .illegal w else decodeLegal w

/-- The fields of R48 put together: `OP` in bits 3:0, `ARG` in bits 5:4, `RSV` zero. -/
def packCommand (op : BitVec 4) (arg : BitVec 2) : Word := (0#26 ++ arg) ++ op

/-- The command word of a command (R49). -/
def encodeInstr : Instr → Word
  | .alut => packCommand 0x1 0
  | .ilut => packCommand 0x2 0
  | .encblk1 => packCommand 0x3 1
  | .encblk2 => packCommand 0x3 2
  | .encblk3 => packCommand 0x3 3
  | .encode => packCommand 0x4 0
  | .decblk0 => packCommand 0x5 0
  | .decblk1 => packCommand 0x5 1
  | .decode => packCommand 0x6 0
  | .enclen => packCommand 0x7 0
  | .declen => packCommand 0x8 0
  | .illegal w => w

/-- The command that the decoder reads from the low `nbits` bits of `w`.  A command is one 32-bit write to `CMD` and has no
bytes in memory, so there is no byte order to apply; more than 32 bits are no command (R48, R56).  Log entry 21. -/
def decodeTableWord (nbits w : Nat) : Option Instr :=
  if nbits = 0 ∨ 32 < nbits then none
  else some (decodeWord (BitVec.ofNat 32 (w % 2 ^ nbits)))

end Sys2Proof
end

