-- ==== Sys2Proof/Config.lean ====
section
/-! DEFINITION. What an implementation fixes (the parameters of 00_scope.md R8) and the free values of the model. -/

namespace Sys2Proof

/-- The shape of `alphabet_lut`: 64 entries of 8 bits (R27). -/
abbrev AlphabetTable := Vector Byte 64

/-- The shape of `inverse_lut`: 128 entries of 7 bits (R27). -/
abbrev InverseTable := Vector Code 128

/-- The parameters `ADDR_W`, `LEN_W` and `ALPHABET` of R8.  `REG_BASE` is kept with each copy of the block and
`INSTANCES` is the number of copies a state holds.  Log entry 4. -/
structure Params where
  addrW : Nat
  lenW : Nat
  alphabet : AlphabetTable
  deriving DecidableEq, Repr

/-- The `k`-th draw of a 32-bit value: what a host read of an UNSPECIFIED register returns (R29, U4).  Log entry 2. -/
opaque Config.freeWord : Nat → Word

/-- The `k`-th draw of a byte: what a host read of a destination byte returns while `BUSY` = 1 (R42, U6).
Log entry 2. -/
opaque Config.freeByte : Nat → Byte

end Sys2Proof
end

