-- ==== Sys2Proof/Machine/Luts.lean ====
section
/-! DEFINITION. The two tables: contents at the end of reset and lookups (40_tables.md R61 to R66, 10_state.md R27). -/

namespace Sys2Proof

/-- A table from a function of the index. -/
def tabulate {α : Type} (n : Nat) (f : Nat → α) : Vector α n :=
  ⟨((List.range n).map f).toArray, by simp⟩

/-- The padding symbol `=` (R8: fixed, not a parameter). -/
def padSymbol : Byte := 0x3D

/-- The value that marks a code which is no alphabet symbol (R64). -/
def sentinel : Code := 127

/-- Symbol `i` of the standard Base64 alphabet, by the ranges at the end of R61.  Log entry 12. -/
def standardSymbol (i : Nat) : Byte :=
  if i < 26 then BitVec.ofNat 8 (0x41 + i)
  else if i < 52 then BitVec.ofNat 8 (0x61 + (i - 26))
  else if i < 62 then BitVec.ofNat 8 (0x30 + (i - 52))
  else if i = 62 then 0x2B
  else 0x2F

/-- The default of `ALPHABET` (R61). -/
def standardAlphabet : AlphabetTable := tabulate 64 standardSymbol

/-- The parameters' default values of R8. -/
def Params.default : Params := { addrW := 32, lenW := 32, alphabet := standardAlphabet }

/-- `ALPHA(i)` (R63). -/
def alpha (t : AlphabetTable) (i : Sextet) : Byte := t[i.toNat]'i.isLt

/-- The entry that `inverse_lut` holds for the code `c`: the index of the symbol `c`, or the sentinel (R64). -/
def inverseEntry (a : AlphabetTable) (c : Nat) : Code :=
  match (List.range 64).find? (fun i => alpha a (BitVec.ofNat 6 i) == BitVec.ofNat 8 c) with
  | some i => BitVec.ofNat 7 i
  | none => sentinel

/-- The contents of `inverse_lut` for an alphabet (R64). -/
def inverseOf (a : AlphabetTable) : InverseTable := tabulate 128 (inverseEntry a)

/-- `INV(c)`: entry `c` of the inverse table (R64). -/
def inverseAt (t : InverseTable) (c : Code) : Code := t[c.toNat]'c.isLt

/-- `INVX(c)`: the 8-bit extension (R66). -/
def invx (t : InverseTable) (c : Byte) : Code :=
  if c.toNat ≤ 0x7F then inverseAt t (c.setWidth 7) else sentinel

end Sys2Proof
end

