-- ==== Sys2Proof/Machine/State.lean ====
section
/-! DEFINITION. The state of the machine: the registers, engine and tables of each copy of the block, the data memory, and
the host's program (10_state.md, 20_memory.md, 60_exceptions.md R112).  Plain data throughout. -/

namespace Sys2Proof.Machine

/-- The five error kinds of R100. -/
inductive ErrorKind where
  | capacity
  | length
  | decode
  | illegalCommand
  | range
  deriving DecidableEq, Repr

/-- The two fields of `STATUS` that are stored (R19); the reserved bits are no storage and read as 0. -/
structure Status where
  busy : Bool
  err : BitVec 4
  deriving DecidableEq, Repr

/-- The names of the register map (R16). -/
inductive Reg where
  | cmd
  | status
  | src
  | slen
  | dst
  | dcap
  | din
  | dout
  | rlen
  deriving DecidableEq, Repr

/-- Which of the registers that reset leaves UNSPECIFIED have been written since (R29).  The model's own bits: they decide
only what a host read returns.  Log entries 1 and 2. -/
structure Written where
  src : Bool
  slen : Bool
  dst : Bool
  dcap : Bool
  din : Bool
  dout : Bool
  rlen : Bool
  deriving DecidableEq, Repr

/-- One copy of the block: its register window, its registers (R16), its engine's accepted command word (R25) and its two
tables (R27). -/
structure Block where
  regBase : Nat
  status : Status
  pending : Option Word
  src : Word
  slen : Word
  dst : Word
  dcap : Word
  din : Word
  dout : Word
  rlen : Word
  written : Written
  alphabetLut : AlphabetTable
  inverseLut : InverseTable
  deriving DecidableEq, Repr

/-- The data memory: the listed bytes, by strictly rising address, none of them the byte an unlisted address reads as
(R31; log entry 3). -/
structure Memory where
  cells : List Host.Cell
  deriving DecidableEq, Repr

/-- What can happen next: the host's accesses (R17, R42), its `WAIT` (R57), the reset input of a copy (R113), and a turn
of a copy's command engine (R25).  Log entry 6. -/
inductive HostAction where
  /-- A write of the low `width` bits of `value` at a bus address. -/
  | busWrite (addr width : Nat) (value : Word)
  /-- A read of `width` bits at a bus address. -/
  | busRead (addr width : Nat)
  /-- The host writes one byte of the data memory. -/
  | memWrite (addr : Nat) (value : Byte)
  /-- The host reads one byte of the data memory. -/
  | memRead (addr : Nat)
  /-- `WAIT`: read `STATUS` of a copy until `BUSY` is 0 (R57). -/
  | wait (copy : Nat)
  /-- The reset input of a copy is asserted and deasserted (R113). -/
  | reset (copy : Nat)
  /-- The command engine of a copy takes its step (R25). -/
  | engine (copy : Nat)
  deriving DecidableEq, Repr

/-- What the host's last read returned. -/
inductive Reply where
  | none
  | word (v : Word)
  | byte (v : Byte)
  deriving DecidableEq, Repr

/-- Why the machine stops with a fault.  The spec calls each of these UNSPECIFIED and says that a model records a fault
(R108, R112), but for `noSuchAddress`; each is safe: hardware goes on where the model stops.  Log entry 8. -/
inductive Fault where
  /-- The step of an `ENCODE` or `DECODE` that passes its error checks while its source and destination regions have a byte
  in common (R43).  Raised by those two meanings.  Safe. -/
  | overlappingRegions
  /-- A host write into the source or destination region of a copy whose `BUSY` is 1 (R42).  Raised by the host's memory
  write.  Safe. -/
  | hostWriteWhileBusy
  /-- A reset while `BUSY` = 1 (R116).  Raised by the reset input.  Safe. -/
  | resetWhileBusy
  /-- The engine step of a copy while another copy runs and their regions overlap where one of them writes (R112).  Raised
  by the engine's step.  Safe. -/
  | copiesOverlap
  /-- A host access to an address that the data memory does not have (R31).  Raised by the host's memory accesses.  Safe. -/
  | noSuchAddress
  deriving DecidableEq, Repr

/-- Why the model gives an action no meaning.  Each is safe: nothing can be proved of what follows. -/
inductive Refusal where
  /-- A command whose meaning is not written yet.  Raised by `exec` alone.  Safe. -/
  | notModelled (mnemonic : String)
  /-- A register access that is not 32 bits wide at a 4-byte-aligned offset (R17, U5).  Raised by the host's bus accesses.
  Safe. -/
  | accessWidth
  /-- A bus access outside every copy's register window: it reaches no part of the block (R31).  Raised by the host's bus
  accesses.  Safe.  Log entry 13. -/
  | outsideWindow
  /-- An action that names a copy the platform does not have (R112).  Raised by `WAIT`, the reset input and the engine's
  turn.  Safe.  Log entry 19. -/
  | noSuchCopy
  deriving DecidableEq, Repr

/-- The machine.  `blk` is the copy that commands act on, copy 0; `others` are the copies 1, 2, ... (R112).  The memory is
shared (R31).  `program` is the host's remaining program and the turns of the engines (log entry 6), `reply` what the
host's last read returned, and `draws` how many free values have been used (log entry 2): these three are the model's
own. -/
structure State where
  params : Params
  blk : Block
  others : List Block
  mem : Memory
  program : List HostAction
  reply : Reply
  draws : Nat
  deriving DecidableEq, Repr

/-- No UNSPECIFIED register has been written (R30). -/
def Written.nothing : Written :=
  { src := false, slen := false, dst := false, dcap := false, din := false, dout := false, rlen := false }

/-- One copy at the end of reset (R30): `STATUS` = 0, no command pending, the tables holding their contents.  The registers
that R30 leaves UNSPECIFIED hold zero (log entry 1). -/
def Block.afterReset (p : Params) (base : Nat) : Block :=
  { regBase := base
    status := { busy := false, err := 0 }
    pending := none
    src := 0
    slen := 0
    dst := 0
    dcap := 0
    din := 0
    dout := 0
    rlen := 0
    written := Written.nothing
    alphabetLut := p.alphabet
    inverseLut := inverseOf p.alphabet }

/-- The machine right after reset (R30): the default parameters of R8, one copy, memory with nothing listed and no host
program.  Log entries 1, 3, 5 and 6. -/
def State.reset : State :=
  { params := Params.default
    blk := Block.afterReset Params.default 0
    others := []
    mem := { cells := [] }
    program := []
    reply := .none
    draws := 0 }

end Sys2Proof.Machine
end

