-- ==== Sys2Proof/Machine/Flags.lean ====
section
/-! DEFINITION. The status register: error codes, the word the host reads, and its three updates (10_state.md R18, R19, R25;
60_exceptions.md R100).  The block has no other flags (R15). -/

namespace Sys2Proof.Machine

/-- The code of an error kind in `STATUS.ERR` (R100). -/
def ErrorKind.code : ErrorKind → BitVec 4
  | .capacity => 1
  | .length => 2
  | .decode => 3
  | .illegalCommand => 4
  | .range => 5

/-- `STATUS` as the host reads it: `BUSY` at bit 0, `ERR` at bits 7:4, every other bit 0 (R19). -/
def Status.word (st : Status) : Word := ((0#24 ++ st.err) ++ 0#3) ++ BitVec.ofBool st.busy

/-- What an accepted `CMD` write leaves in `STATUS`: `ERR` 0 and `BUSY` 1 (R18). -/
def Status.accepted : Status := { busy := true, err := 0 }

/-- What the end of a command leaves in `STATUS`: the outcome in `ERR`, and `BUSY` 0 (R25). -/
def Status.ended (err : BitVec 4) : Status := { busy := false, err := err }

end Sys2Proof.Machine
end

