-- ==== Sys2Proof/Machine/Ops.lean ====
section
/-! DEFINITION. The named operations over memory and registers: byte reads and writes (20_memory.md R33, R34, R37), regions
(R38, R42, R43), the result registers (10_state.md R23, R24), and the two ends of a command (R25; 60_exceptions.md R105). -/

namespace Sys2Proof.Machine

/-! ### The data memory -/

/-- What an address that no entry lists reads as.  Log entry 3. -/
def Memory.unlisted : Byte := 0

/-- The byte found for `a` in a list of cells, the first that names it. -/
def lookupCell (a : Nat) : List Host.Cell → Byte
  | [] => Memory.unlisted
  | c :: cs => if c.1 = a then c.2 else lookupCell a cs

/-- Puts the byte `b` at `a` into a list of cells kept by rising address. -/
def insertCell (a : Nat) (b : Byte) : List Host.Cell → List Host.Cell
  | [] => [(a, b)]
  | c :: cs =>
    if a < c.1 then (a, b) :: c :: cs
    else if c.1 = a then (a, b) :: cs
    else c :: insertCell a b cs

/-- The byte at address `a` (R37: a read returns the last byte written there). -/
def Memory.read (m : Memory) (a : Nat) : Byte := lookupCell a m.cells

/-- The memory with the byte at `a` set to `b`; writing what an unlisted address reads as removes the entry. -/
def Memory.write (m : Memory) (a : Nat) (b : Byte) : Memory :=
  if b = Memory.unlisted then { cells := m.cells.filter (fun c => c.1 != a) }
  else { cells := insertCell a b m.cells }

/-- `MemRead(addr, n)`: `n` single-byte reads, element `i` from `addr+i` (R12, R33, R34). -/
def Memory.readBytes (m : Memory) (a n : Nat) : List Byte := (List.range n).map (fun i => m.read (a + i))

/-- `MemWrite(addr, n, s)`: single-byte writes of the elements of `s` at `addr`, `addr+1`, ... (R12, R33, R34). -/
def Memory.writeBytes (m : Memory) (a : Nat) : List Byte → Memory
  | [] => m
  | b :: bs => (m.write a b).writeBytes (a + 1) bs

/-- The canonical form: addresses strictly rising, and no entry equal to what an unlisted address reads as. -/
abbrev Memory.wf (m : Memory) : Prop :=
  m.cells.Pairwise (fun x y => x.1 < y.1) ∧ ∀ c ∈ m.cells, c.2 ≠ Memory.unlisted

/-! ### Regions -/

/-- The range of addresses `[base, base + len)`. -/
structure Region where
  base : Nat
  len : Nat
  deriving DecidableEq, Repr

/-- Whether the address `a` lies in the region. -/
def Region.contains (r : Region) (a : Nat) : Bool := decide (r.base ≤ a) && decide (a < r.base + r.len)

/-- Whether two regions have at least one byte in common (R43). -/
def Region.overlaps (r q : Region) : Bool :=
  decide (0 < r.len) && decide (0 < q.len) && decide (r.base < q.base + q.len) && decide (q.base < r.base + r.len)

/-- The source region `[SRC, SRC + SLEN)` (R20, R21). -/
def Block.srcRegion (b : Block) : Region := { base := b.src.toNat, len := b.slen.toNat }

/-- The destination region `[DST, DST + DCAP)` (R20, R21). -/
def Block.dstRegion (b : Block) : Region := { base := b.dst.toNat, len := b.dcap.toNat }

/-- The region ends at or below the top of the data memory: `src_ok` and `dst_ok` of R38, an unbounded sum. -/
def Region.inside (p : Params) (r : Region) : Bool := decide (r.base + r.len ≤ 2 ^ p.addrW)

/-- `src_ok` (R38). -/
def State.srcOk (s : State) : Bool := s.blk.srcRegion.inside s.params

/-- `dst_ok` (R38). -/
def State.dstOk (s : State) : Bool := s.blk.dstRegion.inside s.params

/-- `MemRead(x[SRC], x[SLEN])`: the source buffer. -/
def State.sourceBytes (s : State) : List Byte := s.mem.readBytes s.blk.src.toNat s.blk.slen.toNat

/-! ### The result registers -/

/-- The low `w` bits of a register value; the bits above the width in use are ignored on write and read as 0 (R20, R21,
R24). -/
def keepLow (w : Nat) (v : Word) : Word := BitVec.ofNat 32 (v.toNat % 2 ^ w)

/-- `x[DOUT] <- v` (R23). -/
def State.setDout (s : State) (v : Word) : State :=
  { s with blk := { s.blk with dout := v, written := { s.blk.written with dout := true } } }

/-- `x[RLEN] <- m`, a register of `LEN_W` bits (R24).  Log entry 17. -/
def State.setRlen (s : State) (m : Nat) : State :=
  { s with blk := { s.blk with
      rlen := keepLow s.params.lenW (BitVec.ofNat 32 m)
      written := { s.blk.written with rlen := true } } }

/-- `MemWrite(x[DST], len, bytes)`: symbol or byte `j` of the result at `DST+j` (R34). -/
def State.storeResult (s : State) (bytes : List Byte) : State :=
  { s with mem := s.mem.writeBytes s.blk.dst.toNat bytes }

/-! ### The end of a command -/

/-- The last lines of `step_engine` (R25): `ERR` takes the outcome, no command is pending, `BUSY` is 0. -/
def State.endCommand (s : State) (err : BitVec 4) : State :=
  { s with blk := { s.blk with status := Status.ended err, pending := none } }

/-- A command that ends without an error: `ERR` 0 (R25, R100). -/
def State.complete (s : State) : State := s.endCommand 0

/-- `raise E`, the one way a command takes an error: only `STATUS` records it; memory and every other register stay as
they were (R12, R105, R106).  There is no handler to go to and no return from one (R107). -/
def State.raiseError (s : State) (e : ErrorKind) : State := s.endCommand e.code

end Sys2Proof.Machine
end

