-- ==== Sys2Proof/Machine/Operands.lean ====
section
/-! DEFINITION. Operand forms: the lanes of `DIN` and `DOUT` (30_encoding.md R52, R53), and the register map with the width
each register uses (10_state.md R16, R20 to R24). -/

namespace Sys2Proof.Machine

/-! ### Lanes -/

/-- `DIN[5:0]`: the index of `ALUT` (R52). -/
def sextetLane (din : Word) : Sextet := din.extractLsb' 0 6

/-- `DIN[31:24]` (R52): `in0` of `DECBLK`. -/
def lane3 (din : Word) : Byte := din.extractLsb' 24 8

/-- `DIN[23:16]` (R52): `b0` of `ENCBLK`, `in1` of `DECBLK`. -/
def lane2 (din : Word) : Byte := din.extractLsb' 16 8

/-- `DIN[15:8]` (R52): `b1` of `ENCBLK`, `in2` of `DECBLK`. -/
def lane1 (din : Word) : Byte := din.extractLsb' 8 8

/-- `DIN[7:0]` (R52): `b2` of `ENCBLK`, `in3` of `DECBLK`, the code of `ILUT`. -/
def lane0 (din : Word) : Byte := din.extractLsb' 0 8

/-- `{c0, c1, c2, c3}`, `c0` in bits 31:24 (R53). -/
def packLanes (c0 c1 c2 c3 : Byte) : Word := ((c0 ++ c1) ++ c2) ++ c3

/-- `DOUT` of `DECBLK`: bits 31:24 zero, then the emitted bytes in order, and 0x00 for a byte the group does not emit
(R53). -/
def packDecoded : List Byte → Word
  | [] => 0
  | [d0] => packLanes 0 d0 0 0
  | [d0, d1] => packLanes 0 d0 d1 0
  | d0 :: d1 :: d2 :: _ => packLanes 0 d0 d1 d2

/-! ### The register map -/

/-- The offset of a register in the window (R16). -/
def Reg.offset : Reg → Nat
  | .cmd => 0x00
  | .status => 0x04
  | .src => 0x08
  | .slen => 0x0C
  | .dst => 0x10
  | .dcap => 0x14
  | .din => 0x18
  | .dout => 0x1C
  | .rlen => 0x20

/-- The register at an offset; `none` at the reserved offsets 0x24..0x3C (R16). -/
def Reg.atOffset (off : Nat) : Option Reg :=
  [Reg.cmd, .status, .src, .slen, .dst, .dcap, .din, .dout, .rlen].find? (fun r => r.offset == off)

/-- The size of the register window in bytes (R16). -/
def windowBytes : Nat := 64

/-- How many low bits of a register are in use (R16, R20, R21, R24). -/
def Reg.width (p : Params) : Reg → Nat
  | .src | .dst => p.addrW
  | .slen | .dcap | .rlen => p.lenW
  | .cmd | .status | .din | .dout => 32

/-- What a register holds for a host read: `CMD` reads as 0 (R17), `STATUS` is the word of R19. -/
def Block.regValue (b : Block) : Reg → Word
  | .cmd => 0
  | .status => b.status.word
  | .src => b.src
  | .slen => b.slen
  | .dst => b.dst
  | .dcap => b.dcap
  | .din => b.din
  | .dout => b.dout
  | .rlen => b.rlen

/-- Whether a register has a value: `CMD` and `STATUS` always read as something defined, the others once they have been
written (R29, R30). -/
def Block.hasValue (b : Block) : Reg → Bool
  | .cmd | .status => true
  | .src => b.written.src
  | .slen => b.written.slen
  | .dst => b.written.dst
  | .dcap => b.written.dcap
  | .din => b.written.din
  | .dout => b.written.dout
  | .rlen => b.written.rlen

end Sys2Proof.Machine
end

