-- ==== Sys2Proof/Machine/Decoder.lean ====
section
/-! DEFINITION. The decoder: symbol classes, the group transform, whole-buffer decoding, and the commands `DECBLK` and
`DECODE` (42_decoder.md R76 to R88). -/

namespace Sys2Proof.Machine

/-- `p_j` of R78. -/
def isPad (c : Byte) : Bool := c == padSymbol

/-- An invalid symbol: neither padding nor a code of the alphabet (R76). -/
def invalidSymbol (t : InverseTable) (c : Byte) : Bool := !isPad c && invx t c == sentinel

/-- `well_padded` (R78). -/
def wellPadded (p0 p1 p2 p3 final : Bool) : Bool :=
  !p0 && !p1 && (!p2 || p3) && (final || (!p2 && !p3))

/-- `v_j`: the value of a symbol, 0 for padding (R81), as an 8-bit value. -/
def symbolValue (t : InverseTable) (c : Byte) : Byte := if isPad c then 0 else (invx t c).setWidth 8

/-- `trunc_8((v0 << 2) | (v1 >> 4))` (R77). -/
def decoded0 (v0 v1 : Byte) : Byte := (v0 <<< 2) ||| (v1 >>> 4)

/-- `trunc_8((v1 << 4) | (v2 >> 2))` (R77). -/
def decoded1 (v1 v2 : Byte) : Byte := (v1 <<< 4) ||| (v2 >>> 2)

/-- `trunc_8(((v2 & 0x03) << 6) | v3)` (R77). -/
def decoded2 (v2 v3 : Byte) : Byte := ((v2 &&& 0x03) <<< 6) ||| v3

/-- The bytes a group without an error emits: one, two or three by its padding (R81). -/
def groupBytes (t : InverseTable) (in0 in1 in2 in3 : Byte) : List Byte :=
  let v0 := symbolValue t in0
  let v1 := symbolValue t in1
  let v2 := symbolValue t in2
  let v3 := symbolValue t in3
  if isPad in2 then [decoded0 v0 v1]
  else if isPad in3 then [decoded0 v0 v1, decoded1 v1 v2]
  else [decoded0 v0 v1, decoded1 v1 v2, decoded2 v2 v3]

/-- `dec_group(s, final)` (R81): an invalid symbol or a placement of padding that R78 does not allow is a `DecodeError`. -/
def decGroup (t : InverseTable) (in0 in1 in2 in3 : Byte) (final : Bool) : Except ErrorKind (List Byte) :=
  if invalidSymbol t in0 || invalidSymbol t in1 || invalidSymbol t in2 || invalidSymbol t in3 then .error .decode
  else if !wellPadded (isPad in0) (isPad in1) (isPad in2) (isPad in3) final then .error .decode
  else .ok (groupBytes t in0 in1 in2 in3)

/-- The loop of `decode(t)` over groups of four symbols; only the last group is final (R82).  A rest of one, two or three
symbols does not occur in `decodeBytes`, which has checked the length. -/
def decodeGroups (t : InverseTable) : List Byte → Except ErrorKind (List Byte)
  | [] => .ok []
  | in0 :: in1 :: in2 :: in3 :: rest =>
    match decGroup t in0 in1 in2 in3 rest.isEmpty with
    | .error e => .error e
    | .ok r =>
      match decodeGroups t rest with
      | .error e => .error e
      | .ok out => .ok (r ++ out)
  | _ => .error .length

/-- `decode(t)` (R82 to R84): the length is checked before any group. -/
def decodeBytes (t : InverseTable) (text : List Byte) : Except ErrorKind (List Byte) :=
  if text.length % 4 ≠ 0 then .error .length else decodeGroups t text

/-- The effect of `DECBLK F`, shared by its two words (R86). -/
def State.decodeGroup (s : State) (final : Bool) : State :=
  match decGroup s.blk.inverseLut (lane3 s.blk.din) (lane2 s.blk.din) (lane1 s.blk.din) (lane0 s.blk.din) final with
  | .error e => s.raiseError e
  | .ok r => ((s.setDout (packDecoded r)).setRlen r.length).complete

/-- `DECBLK 0`: a group before the last (R86). -/
def execDecblk0 (s : State) : Host.Outcome State Fault Refusal := .next (s.decodeGroup false)

/-- `DECBLK 1`: the final group (R86). -/
def execDecblk1 (s : State) : Host.Outcome State Fault Refusal := .next (s.decodeGroup true)

/-- The error checks of `DECODE` in the order of R88, and the bytes it writes when none of them fails. -/
def State.decodeOutput (s : State) : Except ErrorKind (List Byte) :=
  if !s.srcOk || !s.dstOk then .error .range
  else
    match decodeBytes s.blk.inverseLut s.sourceBytes with
    | .error e => .error e
    | .ok out => if s.blk.dcap.toNat < out.length then .error .capacity else .ok out

/-- `DECODE` (R88): every check is decided before the first write (R40); overlapping regions are a model fault once the
checks have passed (R43). -/
def execDecode (s : State) : Host.Outcome State Fault Refusal :=
  match s.decodeOutput with
  | .error e => .next (s.raiseError e)
  | .ok out =>
    if s.blk.srcRegion.overlaps s.blk.dstRegion then .fault .overlappingRegions
    else .next ((s.storeResult out).setRlen out.length).complete

end Sys2Proof.Machine
end

