-- ==== Sys2Proof/Machine/Length.lean ====
section
/-! DEFINITION. The sizing helpers and their commands `ENCLEN` and `DECLEN` (43_length.md R90 to R95). -/

namespace Sys2Proof.Machine

/-- `encodedLength(n)` (R90). -/
def encodedLength (n : Nat) : Nat := ((n + 2) / 3) * 4

/-- 1 for the padding symbol, 0 for any other byte. -/
def padCount (c : Byte) : Nat := if c = padSymbol then 1 else 0

/-- `decodedLength(t)` (R91): it looks at the length and the last two symbols only (R92). -/
def decodedLength (t : List Byte) : Except ErrorKind Nat :=
  if t.length % 4 ≠ 0 then .error .length
  else if t.length = 0 then .ok 0
  else .ok (t.length / 4 * 3 - padCount (t.getD (t.length - 2) 0) - padCount (t.getD (t.length - 1) 0))

/-- `ENCLEN`: `RLEN` takes `encodedLength(x[SLEN])`, or `RangeError` when it does not fit `LEN_W` bits (R93, R94). -/
def execEnclen (s : State) : Host.Outcome State Fault Refusal :=
  if encodedLength s.blk.slen.toNat > 2 ^ s.params.lenW - 1 then .next (s.raiseError .range)
  else .next (s.setRlen (encodedLength s.blk.slen.toNat)).complete

/-- The number `DECLEN` computes on a text of `n` symbols at `a`: it reads the last two only (R95). -/
def lengthFromTail (m : Memory) (a n : Nat) : Nat :=
  n / 4 * 3 - padCount (m.read (a + n - 2)) - padCount (m.read (a + n - 1))

/-- `DECLEN`: `RangeError`, then `LengthError`, then the length from the last two source bytes (R95). -/
def execDeclen (s : State) : Host.Outcome State Fault Refusal :=
  if !s.srcOk then .next (s.raiseError .range)
  else if s.blk.slen.toNat % 4 ≠ 0 then .next (s.raiseError .length)
  else if s.blk.slen.toNat = 0 then .next (s.setRlen 0).complete
  else .next (s.setRlen (lengthFromTail s.mem s.blk.src.toNat s.blk.slen.toNat)).complete

end Sys2Proof.Machine
end

