-- ==== Sys2Proof/Machine/Encoder.lean ====
section
/-! DEFINITION. The encoder: the group transform, whole-buffer encoding, and the commands `ENCBLK` and `ENCODE`
(41_encoder.md R69 to R74). -/

namespace Sys2Proof.Machine

/-- The four symbols of one group. -/
structure Symbols where
  c0 : Byte
  c1 : Byte
  c2 : Byte
  c3 : Byte
  deriving DecidableEq, Repr

/-- The symbols from left to right. -/
def Symbols.toList (g : Symbols) : List Byte := [g.c0, g.c1, g.c2, g.c3]

/-- `{c0, c1, c2, c3}` as a word (R53). -/
def Symbols.word (g : Symbols) : Word := packLanes g.c0 g.c1 g.c2 g.c3

/-- `b0 >> 2` (R69). -/
def sextet0 (b0 : Byte) : Sextet := (b0 >>> 2).setWidth 6

/-- `((b0 & 0x03) << 4) | (b1 >> 4)` (R69). -/
def sextet1 (b0 b1 : Byte) : Sextet := (((b0 &&& 0x03) <<< 4) ||| (b1 >>> 4)).setWidth 6

/-- `((b1 & 0x0F) << 2) | (b2 >> 6)` (R69). -/
def sextet2 (b1 b2 : Byte) : Sextet := (((b1 &&& 0x0F) <<< 2) ||| (b2 >>> 6)).setWidth 6

/-- `b2 & 0x3F` (R69). -/
def sextet3 (b2 : Byte) : Sextet := (b2 &&& 0x3F).setWidth 6

/-- `enc_group(k, b0, b1, b2)` (R70): the bytes a group of `k` does not have are zeroed first, and their symbols are
padding. -/
def encGroup (t : AlphabetTable) (k : Nat) (b0 b1 b2 : Byte) : Symbols :=
  let b2 := if k < 3 then 0 else b2
  let b1 := if k < 2 then 0 else b1
  { c0 := alpha t (sextet0 b0)
    c1 := alpha t (sextet1 b0 b1)
    c2 := if k ≥ 2 then alpha t (sextet2 b1 b2) else padSymbol
    c3 := if k = 3 then alpha t (sextet3 b2) else padSymbol }

/-- `encode(b)` (R71): consecutive groups of three bytes, the last of which may hold one or two. -/
def encodeBytes (t : AlphabetTable) : List Byte → List Byte
  | [] => []
  | [b0] => (encGroup t 1 b0 0 0).toList
  | [b0, b1] => (encGroup t 2 b0 b1 0).toList
  | b0 :: b1 :: b2 :: rest => (encGroup t 3 b0 b1 b2).toList ++ encodeBytes t rest

/-- The effect of `ENCBLK K`, shared by its three words (R72). -/
def State.encodeGroup (s : State) (k : Nat) : State :=
  ((s.setDout (encGroup s.blk.alphabetLut k (lane2 s.blk.din) (lane1 s.blk.din) (lane0 s.blk.din)).word).setRlen 4).complete

/-- `ENCBLK 1` (R72). -/
def execEncblk1 (s : State) : Host.Outcome State Fault Refusal := .next (s.encodeGroup 1)

/-- `ENCBLK 2` (R72). -/
def execEncblk2 (s : State) : Host.Outcome State Fault Refusal := .next (s.encodeGroup 2)

/-- `ENCBLK 3` (R72). -/
def execEncblk3 (s : State) : Host.Outcome State Fault Refusal := .next (s.encodeGroup 3)

/-- The error checks of `ENCODE` in the order of R74, and the bytes it writes when none of them fails. -/
def State.encodeOutput (s : State) : Except ErrorKind (List Byte) :=
  if !s.srcOk || !s.dstOk then .error .range
  else if s.blk.dcap.toNat < encodedLength s.blk.slen.toNat then .error .capacity
  else .ok (encodeBytes s.blk.alphabetLut s.sourceBytes)

/-- `ENCODE` (R74): every check is decided before the first write (R40); overlapping regions are a model fault once the
checks have passed (R43). -/
def execEncode (s : State) : Host.Outcome State Fault Refusal :=
  match s.encodeOutput with
  | .error e => .next (s.raiseError e)
  | .ok out =>
    if s.blk.srcRegion.overlaps s.blk.dstRegion then .fault .overlappingRegions
    else .next ((s.storeResult out).setRlen (encodedLength s.blk.slen.toNat)).complete

end Sys2Proof.Machine
end

