-- ==== Sys2Proof/Machine/Illegal.lean ====
section
/-! DEFINITION. The illegal words (30_encoding.md R50, R55; 60_exceptions.md R101). -/

namespace Sys2Proof.Machine

/-- An illegal word raises `IllegalCommand`: no operand is read and nothing but `STATUS` is written, whatever the word
(R50, R101). -/
def execIllegal (_w : Word) (s : State) : Host.Outcome State Fault Refusal :=
  .next (s.raiseError .illegalCommand)

end Sys2Proof.Machine
end

