-- ==== Sys2Proof/Machine/Tables.lean ====
section
/-! DEFINITION. The table commands `ALUT` and `ILUT` (40_tables.md R67, R68). -/

namespace Sys2Proof.Machine

/-- `ALUT`: `DOUT` takes `ALPHA(DIN[5:0])`, zero-extended (R67). -/
def execAlut (s : State) : Host.Outcome State Fault Refusal :=
  .next (s.setDout ((alpha s.blk.alphabetLut (sextetLane s.blk.din)).setWidth 32)).complete

/-- `ILUT`: `DOUT` takes `INVX(DIN[7:0])`, zero-extended; the sentinel is a result, not an error (R68). -/
def execIlut (s : State) : Host.Outcome State Fault Refusal :=
  .next (s.setDout ((invx s.blk.inverseLut (lane0 s.blk.din)).setWidth 32)).complete

end Sys2Proof.Machine
end

