-- ==== Sys2Proof/Machine/Dispatch.lean ====
section
/-! DEFINITION. `execute(w)` of 30_encoding.md R60: one arm per row of the opcode table. -/

namespace Sys2Proof.Machine

/-- The command `i` executed by the copy `s.blk`, with the last lines of `step_engine` (10_state.md R25). -/
def exec (i : Instr) (s : State) : Host.Outcome State Fault Refusal :=
  match i with
  | .alut => Sys2Proof.Machine.execAlut s
  | .ilut => Sys2Proof.Machine.execIlut s
  | .encblk1 => Sys2Proof.Machine.execEncblk1 s
  | .encblk2 => Sys2Proof.Machine.execEncblk2 s
  | .encblk3 => Sys2Proof.Machine.execEncblk3 s
  | .encode => Sys2Proof.Machine.execEncode s
  | .decblk0 => Sys2Proof.Machine.execDecblk0 s
  | .decblk1 => Sys2Proof.Machine.execDecblk1 s
  | .decode => Sys2Proof.Machine.execDecode s
  | .enclen => Sys2Proof.Machine.execEnclen s
  | .declen => Sys2Proof.Machine.execDeclen s
  | .illegal w => Sys2Proof.Machine.execIllegal w s

end Sys2Proof.Machine
end

