-- ==== Sys2Proof/Machine/Engine.lean ====
section
/-! DEFINITION. The copies of the block and the command engine's one step (10_state.md R25; 60_exceptions.md R112). -/

namespace Sys2Proof.Machine

/-- Copy `n` of the block: copy 0 is `blk` (R112). -/
def State.copy (s : State) : Nat → Option Block
  | 0 => some s.blk
  | k + 1 => s.others[k]?

/-- The state with copy `n` replaced; nothing changes when there is no such copy. -/
def State.setCopy (s : State) (n : Nat) (b : Block) : State :=
  match n with
  | 0 => { s with blk := b }
  | k + 1 => { s with others := s.others.set k b }

/-- Exchanges copy `n` with copy 0, so that a command acts on copy `n`; doing it twice changes nothing. -/
def State.focus (s : State) (n : Nat) : State :=
  match n with
  | 0 => s
  | k + 1 =>
    match s.others[k]? with
    | none => s
    | some b => { s with blk := b, others := s.others.set k s.blk }

/-- The outcome with its next state changed. -/
def onNext (f : State → State) : Host.Outcome State Fault Refusal → Host.Outcome State Fault Refusal
  | .next s => .next (f s)
  | .fault r => .fault r
  | .refused r => .refused r

/-- Whether the command that copy `b` is running writes its destination region: an `ENCODE` or `DECODE` that passes its
error checks on the present memory (R32, R40).  Log entry 10. -/
def State.runningWriter (s : State) (b : Block) : Bool :=
  match b.status.busy, b.pending with
  | true, some w =>
    match decodeWord w with
    | .encode => ({ s with blk := b } : State).encodeOutput.isOk
    | .decode => ({ s with blk := b } : State).decodeOutput.isOk
    | _ => false
  | _, _ => false

/-- Whether the destination region of `a` has a byte in common with a region of `b`. -/
def Block.dstMeets (a b : Block) : Bool :=
  a.dstRegion.overlaps b.srcRegion || a.dstRegion.overlaps b.dstRegion

/-- Whether two running copies' regions overlap where at least one writes (R112).  Log entry 10. -/
def State.copiesConflict (s : State) (a b : Block) : Bool :=
  b.status.busy && ((s.runningWriter a && a.dstMeets b) || (s.runningWriter b && b.dstMeets a))

/-- The engine's step on copy 0 (R25): enabled when `BUSY` = 1, it executes the pending word; otherwise nothing moves. -/
def State.engineOfBlk (s : State) : Host.Outcome State Fault Refusal :=
  match s.blk.status.busy, s.blk.pending with
  | true, some w =>
    if s.others.any (s.copiesConflict s.blk) then .fault .copiesOverlap
    else exec (decodeWord w) s
  | _, _ => .next s

/-- A turn of the engine of copy `n` (R25, R112). -/
def State.engineStep (s : State) (n : Nat) : Host.Outcome State Fault Refusal :=
  match s.copy n with
  | none => .refused .noSuchCopy
  | some _ => onNext (fun t => t.focus n) (s.focus n).engineOfBlk

/-- The first copy whose `BUSY` is 1, if any. -/
def State.firstBusy (s : State) : Option Nat :=
  (s.blk :: s.others).findIdx? (fun b => b.status.busy)

/-- What happens when the host does nothing more: a running command is taken to its end (weak fairness, R124), and an idle
block waits (R114).  Log entry 7. -/
def State.idleStep (s : State) : Host.Outcome State Fault Refusal :=
  match s.firstBusy with
  | some n => s.engineStep n
  | none => .next s

end Sys2Proof.Machine
end

