-- ==== Sys2Proof/Machine/HostPort.lean ====
section
/-! DEFINITION. What the host does to the block: register accesses (10_state.md R17 to R24, R29), accesses to the data
memory (20_memory.md R42), `WAIT` (30_encoding.md R57) and the reset input (70_reset_and_hazards.md R113, R116). -/

namespace Sys2Proof.Machine

/-! ### Registers -/

/-- An accepted `CMD` write: `ERR` 0, `BUSY` 1, and the word handed to the engine (R18). -/
def Block.accept (b : Block) (w : Word) : Block :=
  { b with status := Status.accepted, pending := some w }

/-- A write to a register while `BUSY` = 0: the bits above the width are dropped (R20, R21); a read-only register keeps its
value (R17). -/
def Block.storeReg (p : Params) (b : Block) (r : Reg) (v : Word) : Block :=
  match r with
  | .cmd => b.accept v
  | .src => { b with src := keepLow (Reg.width p .src) v, written := { b.written with src := true } }
  | .slen => { b with slen := keepLow (Reg.width p .slen) v, written := { b.written with slen := true } }
  | .dst => { b with dst := keepLow (Reg.width p .dst) v, written := { b.written with dst := true } }
  | .dcap => { b with dcap := keepLow (Reg.width p .dcap) v, written := { b.written with dcap := true } }
  | .din => { b with din := v, written := { b.written with din := true } }
  | .status | .dout | .rlen => b

/-- A 32-bit write at an offset of the window: dropped while `BUSY` = 1 (R17, R18), ignored at a reserved offset (R16). -/
def Block.writeOffset (p : Params) (b : Block) (off : Nat) (v : Word) : Block :=
  if b.status.busy then b
  else
    match Reg.atOffset off with
    | none => b
    | some r => b.storeReg p r v

/-- A read at this offset finds a register that has no value, so that it takes a draw (R29). -/
def Block.readsDraw (b : Block) (off : Nat) : Bool := ((Reg.atOffset off).map (fun r => !b.hasValue r)).getD false

/-- What a 32-bit read at an offset returns: 0 at a reserved offset (R17), the draw `free` for a register that has no value
(R29), else the register; the bits above the width read as 0. -/
def Block.readOffset (p : Params) (b : Block) (off : Nat) (free : Word) : Word :=
  match Reg.atOffset off with
  | none => 0
  | some r => if b.hasValue r then b.regValue r else keepLow (Reg.width p r) free

/-- The copy whose register window holds a bus address, with its number: the first such copy (R16, R112). -/
def State.copyAt (s : State) (addr : Nat) : Option (Nat × Block) :=
  ((s.blk :: s.others).zipIdx.find? (fun c => decide (c.1.regBase ≤ addr) && decide (addr < c.1.regBase + windowBytes))).map
    (fun c => (c.2, c.1))

/-- An access the register port takes: 32 bits wide at a 4-byte-aligned offset (R17). -/
def properAccess (b : Block) (addr width : Nat) : Bool := width == 32 && (addr - b.regBase) % 4 == 0

/-- A host write on the bus (R17).  Log entry 13. -/
def State.busWrite (s : State) (addr width : Nat) (v : Word) : Host.Outcome State Fault Refusal :=
  match s.copyAt addr with
  | none => .refused .outsideWindow
  | some (n, b) =>
    if properAccess b addr width then .next (s.setCopy n (b.writeOffset s.params (addr - b.regBase) v))
    else .refused .accessWidth

/-- A host read on the bus: it changes no register (R17). -/
def State.busRead (s : State) (addr width : Nat) : Host.Outcome State Fault Refusal :=
  match s.copyAt addr with
  | none => .refused .outsideWindow
  | some (_, b) =>
    if properAccess b addr width then
      .next { s with
        reply := .word (b.readOffset s.params (addr - b.regBase) (Config.freeWord s.draws))
        draws := if b.readsDraw (addr - b.regBase) then s.draws + 1 else s.draws }
    else .refused .accessWidth

/-! ### The data memory -/

/-- Some running copy has `a` in its destination region (R42). -/
def State.inBusyDst (s : State) (a : Nat) : Bool :=
  (s.blk :: s.others).any (fun b => b.status.busy && b.dstRegion.contains a)

/-- Some running copy has `a` in its source region (R42). -/
def State.inBusySrc (s : State) (a : Nat) : Bool :=
  (s.blk :: s.others).any (fun b => b.status.busy && b.srcRegion.contains a)

/-- The host writes a byte of the data memory: a fault inside a region of a running copy (R42).  Log entries 9 and 14. -/
def State.hostMemWrite (s : State) (a : Nat) (v : Byte) : Host.Outcome State Fault Refusal :=
  if 2 ^ s.params.addrW ≤ a then .fault .noSuchAddress
  else if s.inBusySrc a || s.inBusyDst a then .fault .hostWriteWhileBusy
  else .next { s with mem := s.mem.write a v }

/-- The host reads a byte of the data memory: a draw inside the destination region of a running copy (R42).  Log entries 9
and 14. -/
def State.hostMemRead (s : State) (a : Nat) : Host.Outcome State Fault Refusal :=
  if 2 ^ s.params.addrW ≤ a then .fault .noSuchAddress
  else if s.inBusyDst a then .next { s with reply := .byte (Config.freeByte s.draws), draws := s.draws + 1 }
  else .next { s with reply := .byte (s.mem.read a) }

/-! ### Waiting and reset -/

/-- `WAIT` on copy `n` (R57): while `BUSY` = 1 the engine gets its turn (weak fairness, R124) and the host goes on waiting;
the read that finds `BUSY` = 0 ends it.  Log entry 7. -/
def State.hostWait (s : State) (n : Nat) : Host.Outcome State Fault Refusal :=
  match s.copy n with
  | none => .refused .noSuchCopy
  | some b =>
    if b.status.busy then ({ s with program := .wait n :: s.program } : State).engineStep n
    else .next { s with reply := .word b.status.word }

/-- The reset input of copy `n` (R113): its state takes the values of R30 and memory is not touched; with `BUSY` = 1 it is
a model fault (R116).  Log entry 18. -/
def State.hostReset (s : State) (n : Nat) : Host.Outcome State Fault Refusal :=
  match s.copy n with
  | none => .refused .noSuchCopy
  | some b =>
    if b.status.busy then .fault .resetWhileBusy
    else .next (s.setCopy n (Block.afterReset s.params b.regBase))

/-- One action of the program, on a state from whose program it has been taken. -/
def State.perform (s : State) : HostAction → Host.Outcome State Fault Refusal
  | .busWrite addr width v => s.busWrite addr width v
  | .busRead addr width => s.busRead addr width
  | .memWrite a v => s.hostMemWrite a v
  | .memRead a => s.hostMemRead a
  | .wait n => s.hostWait n
  | .reset n => s.hostReset n
  | .engine n => s.engineStep n

/-! ### The host program's notation (R57) -/

/-- `WR <reg>, <value>` for the copy whose window is at `base`. -/
def wr (base : Nat) (r : Reg) (v : Word) : HostAction := .busWrite (base + r.offset) 32 v

/-- `RD <reg>`. -/
def rd (base : Nat) (r : Reg) : HostAction := .busRead (base + r.offset) 32

/-- The pseudo-instruction of a command: `WR CMD` of its word. -/
def command (base : Nat) (i : Instr) : HostAction := wr base .cmd (encodeInstr i)

end Sys2Proof.Machine
end

