-- ==== Sys2Proof/Machine/Step.lean ====
section
/-! DEFINITION. One step of the machine, and the state in which a given command is the next to run. -/

namespace Sys2Proof.Machine

/-- One step: the program's next action, or what R124 and R114 say when the host does nothing more.  Log entries 6 and 7. -/
def step (s : State) : Host.Outcome State Fault Refusal :=
  match s.program with
  | [] => s.idleStep
  | a :: rest => State.perform { s with program := rest } a

/-- The state `s` with the command word `w` accepted by copy 0 (R18) and its engine's turn next, so that the next step
executes it.  Log entry 6. -/
def State.withFetchWord (s : State) (nbits w : Nat) : State :=
  { s with
    blk := s.blk.accept (BitVec.ofNat 32 (w % 2 ^ nbits))
    program := .engine 0 :: s.program }

end Sys2Proof.Machine
end

