-- ==== Sys2Proof/Safety.lean ====
section
/-! DEFINITION. The terms the claims use: legal parameters, the invariant of the machine, what a command leaves alone, and
what the host must have done first. -/

namespace Sys2Proof

/-- What every value of `ALPHABET` must meet (00_scope.md R8, 40_tables.md R62): codes in 0x20..0x7E other than `=`, no two
indices with one symbol, the six pinned entries, and not the URL-safe entries 62 and 63, `-` and `_`. -/
structure AlphabetLegal (a : AlphabetTable) : Prop where
  low : ∀ i, 0x20 ≤ (alpha a i).toNat
  high : ∀ i, (alpha a i).toNat ≤ 0x7E
  noPad : ∀ i, alpha a i ≠ padSymbol
  distinct : ∀ i j, alpha a i = alpha a j → i = j
  entry4 : alpha a 4 = 0x45
  entry5 : alpha a 5 = 0x46
  entry16 : alpha a 16 = 0x51
  entry19 : alpha a 19 = 0x54
  entry22 : alpha a 22 = 0x57
  entry46 : alpha a 46 = 0x75
  notUrlSafe : ¬ (alpha a 62 = 0x2D ∧ alpha a 63 = 0x5F)

/-- The byte `c` is a symbol of the alphabet (R61). -/
def IsSymbol (a : AlphabetTable) (c : Byte) : Prop := ∃ i : Sextet, alpha a i = c

/-- The three causes of `DecodeError` in the words of 60_exceptions.md R99: a character that is neither padding nor a symbol, a
padding character that is not at the end, or more than two of them. -/
def Malformed (a : AlphabetTable) (t : List Byte) : Prop :=
  (∃ c ∈ t, c ≠ padSymbol ∧ ¬ IsSymbol a c)
  ∨ (∃ j k, j < k ∧ k < t.length ∧ t.getD j 0 = padSymbol ∧ t.getD k 0 ≠ padSymbol)
  ∨ 2 < t.count padSymbol

/-- The constraints of the table in R8. -/
structure Params.Legal (p : Params) : Prop where
  addrPos : 1 ≤ p.addrW
  addrMax : p.addrW ≤ 32
  lenMin : 3 ≤ p.lenW
  lenMax : p.lenW ≤ 32
  alphabet : AlphabetLegal p.alphabet

namespace Machine

/-- What holds of every copy of the block at every time. -/
structure Block.Inv (p : Params) (b : Block) : Prop where
  /-- `REG_BASE` is 64-byte aligned (R8). -/
  base : b.regBase % windowBytes = 0
  /-- `ERR` holds only the codes 0..5 (R19). -/
  err : b.status.err.toNat ≤ 5
  /-- `pending` is present exactly while `BUSY` = 1 (R25). -/
  pending : b.pending.isSome = b.status.busy
  /-- While `BUSY` = 1, `ERR` reads 0 (R19). -/
  busyErr : b.status.busy = true → b.status.err = 0
  /-- The bits above the width in use are 0 (R20, R21, R24). -/
  src : b.src.toNat < 2 ^ p.addrW
  dst : b.dst.toNat < 2 ^ p.addrW
  slen : b.slen.toNat < 2 ^ p.lenW
  dcap : b.dcap.toNat < 2 ^ p.lenW
  rlen : b.rlen.toNat < 2 ^ p.lenW
  /-- The tables hold their contents from the end of reset onward (R27). -/
  alphabetLut : b.alphabetLut = p.alphabet
  inverseLut : b.inverseLut = inverseOf p.alphabet

/-- The invariant of the machine. -/
structure State.Inv (s : State) : Prop where
  legal : s.params.Legal
  blk : s.blk.Inv s.params
  others : ∀ b ∈ s.others, b.Inv s.params
  /-- The memory is in its canonical form. -/
  memWf : s.mem.wf
  /-- Only addresses of the data memory are listed (R31). -/
  memIn : ∀ c ∈ s.mem.cells, c.1 < 2 ^ s.params.addrW
  /-- Each copy has its own register window (R112). -/
  windows : ((s.blk :: s.others).map Block.regBase).Nodup

/-- What no command changes in the copy that runs it: its window, its operand registers and which of them have a value, and
its tables (R20 to R22, R27). -/
structure Block.SameOperands (b c : Block) : Prop where
  regBase : c.regBase = b.regBase
  src : c.src = b.src
  slen : c.slen = b.slen
  dst : c.dst = b.dst
  dcap : c.dcap = b.dcap
  din : c.din = b.din
  alphabetLut : c.alphabetLut = b.alphabetLut
  inverseLut : c.inverseLut = b.inverseLut
  writtenSrc : c.written.src = b.written.src
  writtenSlen : c.written.slen = b.written.slen
  writtenDst : c.written.dst = b.written.dst
  writtenDcap : c.written.dcap = b.written.dcap
  writtenDin : c.written.din = b.written.din

/-- What no command changes at all: the parameters, the operand registers and tables of the copy that runs it, the other
copies, and the host. -/
structure State.SameAround (s t : State) : Prop where
  params : t.params = s.params
  operands : s.blk.SameOperands t.blk
  others : t.others = s.others
  program : t.program = s.program
  reply : t.reply = s.reply
  draws : t.draws = s.draws

/-- Every byte of memory reads as before. -/
def State.SameMemory (s t : State) : Prop := ∀ a, t.mem.read a = s.mem.read a

/-- The command has ended with the code `err` (R25): `BUSY` 0, nothing pending. -/
structure State.EndedWith (t : State) (err : BitVec 4) : Prop where
  busy : t.blk.status.busy = false
  err : t.blk.status.err = err
  pending : t.blk.pending = none

/-- The command has ended with an error: its code is in `STATUS.ERR`, and every memory byte and every register but `STATUS`
is as it was (R105). -/
structure State.FailedWith (s t : State) (e : ErrorKind) : Prop where
  ended : t.EndedWith e.code
  around : s.SameAround t
  memory : s.SameMemory t
  dout : t.blk.dout = s.blk.dout
  rlen : t.blk.rlen = s.blk.rlen
  written : t.blk.written = s.blk.written

/-- The source and the destination region have no byte in common (R43). -/
def Block.RegionsDisjoint (b : Block) : Prop :=
  ∀ a : Nat, ¬ (b.src.toNat ≤ a ∧ a < b.src.toNat + b.slen.toNat ∧ b.dst.toNat ≤ a ∧ a < b.dst.toNat + b.dcap.toNat)

/-- `src_ok` as R38 writes it. -/
def State.SrcFits (s : State) : Prop := s.blk.src.toNat + s.blk.slen.toNat ≤ 2 ^ s.params.addrW

/-- `dst_ok` as R38 writes it. -/
def State.DstFits (s : State) : Prop := s.blk.dst.toNat + s.blk.dcap.toNat ≤ 2 ^ s.params.addrW

/-- The operand registers a command reads (R51). -/
def operandRegs : Instr → List Reg
  | .alut | .ilut | .encblk1 | .encblk2 | .encblk3 | .decblk0 | .decblk1 => [.din]
  | .encode | .decode => [.src, .slen, .dst, .dcap]
  | .enclen => [.slen]
  | .declen => [.src, .slen]
  | .illegal _ => []

/-- The host has written every operand register the command reads (R117 step 3).  A command issued without this is a host
error (R29, R108), which the model runs on the registers' reset values (log entry 1). -/
def Block.OperandsWritten (b : Block) (i : Instr) : Prop := ∀ r ∈ operandRegs i, b.hasValue r = true

/-- The copy whose engine has its turn in the next step, if one has. -/
def State.engineTurn (s : State) : Option Nat :=
  match s.program with
  | [] => s.firstBusy
  | .engine n :: _ | .wait n :: _ => some n
  | .busWrite .. :: _ | .busRead .. :: _ | .memWrite .. :: _ | .memRead .. :: _ | .reset .. :: _ => none

/-- A step that neither faults nor is refused, and in which no command executes before its operands are written. -/
def State.SafeStep (s : State) : Prop :=
  (∃ t, step s = .next t) ∧
  ∀ n b w, s.engineTurn = some n → s.copy n = some b → b.pending = some w → b.OperandsWritten (decodeWord w)

end Machine

end Sys2Proof
end

