-- ==== Sys2Proof/Certificates/Slice0/Obligations.lean ====
section
/-! DEFINITION. The statements for the provers.  Each docstring names the rule of spec/ it formalises; OBLIGATIONS.json lists
them with their tiers and quotes. -/

open Sys2Proof Sys2Proof.Machine

/-! ### Encoding -/

/-- Decoding the word of a well-formed command gives the command back (30_encoding.md, sections 1 and 2). -/
def Obligations.DecodeInvertsEncode : Prop :=
  ∀ i : Instr, i.wf = true → decodeWord (encodeInstr i) = i

/-- Every 32-bit word decodes to a well-formed command, and encoding that command gives the word back: no bit of a word is
dropped and no two words share a command (30_encoding.md, section 2). -/
def Obligations.EncodeInvertsDecode : Prop :=
  ∀ w : Word, (decodeWord w).wf = true ∧ encodeInstr (decodeWord w) = w

/-- The opcode map (R49): the eleven legal words with their commands, and no other. -/
def Obligations.ElevenWordsAreLegal : Prop :=
  (decodeWord 0x00000001 = .alut ∧ decodeWord 0x00000002 = .ilut
    ∧ decodeWord 0x00000013 = .encblk1 ∧ decodeWord 0x00000023 = .encblk2 ∧ decodeWord 0x00000033 = .encblk3
    ∧ decodeWord 0x00000004 = .encode
    ∧ decodeWord 0x00000005 = .decblk0 ∧ decodeWord 0x00000015 = .decblk1
    ∧ decodeWord 0x00000006 = .decode ∧ decodeWord 0x00000007 = .enclen ∧ decodeWord 0x00000008 = .declen)
  ∧ legalWords.Nodup ∧ legalWords.length = 11
  ∧ ∀ w : Word, w ∉ legalWords → decodeWord w = .illegal w

/-- The illegal words are those of the formula of R50, here in arithmetic on the word, every other word is one of the eleven legal
ones, and each illegal word ends with `IllegalCommand` and no other effect, whatever the state. -/
def Obligations.IllegalWordsRaiseIllegalCommand : Prop :=
  ∀ w : Word,
    (decodeWord w = .illegal w ↔
      w.toNat / 64 ≠ 0
      ∨ w.toNat % 16 = 0 ∨ 9 ≤ w.toNat % 16
      ∨ (w.toNat % 16 = 3 ∧ w.toNat / 16 % 4 = 0)
      ∨ (w.toNat % 16 = 5 ∧ w.toNat / 32 % 2 = 1)
      ∨ (w.toNat % 16 ∈ [1, 2, 4, 6, 7, 8] ∧ w.toNat / 16 % 4 ≠ 0))
    ∧ (decodeWord w = .illegal w ∨ w ∈ legalWords) ∧ ¬ (decodeWord w = .illegal w ∧ w ∈ legalWords)
    ∧ ∀ s : State, ∃ t, exec (.illegal w) s = .next t ∧ s.FailedWith t .illegalCommand

/-- A word of each family decodes to its command, and words beside them are rejected by name (95_test_vectors.md 2.9). -/
def Obligations.SampleWordsDecode : Prop :=
  decodeWord 0b00000000000000000000000000000010#32 = .ilut
  ∧ decodeWord 0b00000000000000000000000000100011#32 = .encblk2
  ∧ decodeWord 0b00000000000000000000000000010101#32 = .decblk1
  ∧ decodeWord 0b00000000000000000000000000001000#32 = .declen
  ∧ decodeWord 0x00000003 = .illegal 0x00000003
  ∧ decodeWord 0x00000025 = .illegal 0x00000025
  ∧ decodeWord 0x00000044 = .illegal 0x00000044
  ∧ decodeWord 0x80000004 = .illegal 0x80000004

/-! ### Tables -/

/-- The two tables of a legal alphabet are inverse to each other, and every other code has the sentinel (R65). -/
def Obligations.InverseTableInvertsAlphabet : Prop :=
  ∀ a : AlphabetTable, AlphabetLegal a →
    (∀ i : Sextet, (inverseAt (inverseOf a) (BitVec.ofNat 7 (alpha a i).toNat)).toNat = i.toNat)
    ∧ (∀ c : Code, (inverseAt (inverseOf a) c).toNat ≤ 63 ↔ IsSymbol a (c.setWidth 8))
    ∧ (∀ c : Code, (inverseAt (inverseOf a) c).toNat ≤ 63 ∨ (inverseAt (inverseOf a) c).toNat = 127)

/-- The default alphabet is the list of R61 and meets R62.  The model takes the 58 entries that the source does not pin from
the spec's default, which is general knowledge (log entry 12). -/
def Obligations.DefaultAlphabetIsStandard : Prop :=
  AlphabetLegal standardAlphabet
  ∧ (∀ i : Sextet, i.toNat ≤ 25 → (alpha standardAlphabet i).toNat = 0x41 + i.toNat)
  ∧ (∀ i : Sextet, 26 ≤ i.toNat → i.toNat ≤ 51 → (alpha standardAlphabet i).toNat = 0x61 + (i.toNat - 26))
  ∧ (∀ i : Sextet, 52 ≤ i.toNat → i.toNat ≤ 61 → (alpha standardAlphabet i).toNat = 0x30 + (i.toNat - 52))
  ∧ alpha standardAlphabet 62 = 0x2B ∧ alpha standardAlphabet 63 = 0x2F

/-- `ALUT` (R67): from every state it completes with `DOUT` = `ALPHA(DIN[5:0])`, `RLEN` and memory untouched. -/
def Obligations.AlutLooksUpAlphabet : Prop :=
  decodeWord 0x00000001 = .alut
  ∧ ∀ s : State, ∃ t, exec .alut s = .next t ∧ t.EndedWith 0 ∧ s.SameAround t ∧ s.SameMemory t
      ∧ t.blk.dout.toNat = (alpha s.blk.alphabetLut (BitVec.ofNat 6 s.blk.din.toNat)).toNat ∧ t.blk.written.dout = true
      ∧ t.blk.rlen = s.blk.rlen ∧ t.blk.written.rlen = s.blk.written.rlen

/-- `ILUT` (R68): it completes with `DOUT` the index of the symbol `DIN[7:0]`, or 127 for any other byte; it never raises
`DecodeError`, and `RLEN` and memory are untouched. -/
def Obligations.IlutLooksUpInverse : Prop :=
  decodeWord 0x00000002 = .ilut
  ∧ ∀ s : State, s.Inv → ∃ t, exec .ilut s = .next t ∧ t.EndedWith 0 ∧ s.SameAround t ∧ s.SameMemory t
      ∧ (∀ i : Sextet, alpha s.params.alphabet i = BitVec.ofNat 8 s.blk.din.toNat → t.blk.dout.toNat = i.toNat)
      ∧ (¬ IsSymbol s.params.alphabet (BitVec.ofNat 8 s.blk.din.toNat) → t.blk.dout.toNat = 127)
      ∧ t.blk.written.dout = true
      ∧ t.blk.rlen = s.blk.rlen ∧ t.blk.written.rlen = s.blk.written.rlen

/-! ### Encoder -/

/-- `ENCBLK 3`, `ENCBLK 2` and `ENCBLK 1` (R72): each completes from every state with legal parameters; `DOUT` is the symbols
of the sextets cut from `DIN[23:0]` from the most significant end (R69), with the missing bytes zero and padding for their
symbols (R70), and `RLEN` is 4. -/
def Obligations.EncblkEncodesOneGroup : Prop :=
  (decodeWord 0x00000013 = .encblk1 ∧ decodeWord 0x00000023 = .encblk2 ∧ decodeWord 0x00000033 = .encblk3)
  ∧ ∀ s : State, s.params.Legal →
      (∃ t, exec .encblk3 s = .next t ∧ t.EndedWith 0 ∧ s.SameAround t ∧ s.SameMemory t ∧ t.blk.rlen.toNat = 4
        ∧ t.blk.written.dout = true ∧ t.blk.written.rlen = true
        ∧ t.blk.dout = ((alpha s.blk.alphabetLut (s.blk.din.extractLsb' 18 6)
            ++ alpha s.blk.alphabetLut (s.blk.din.extractLsb' 12 6))
            ++ alpha s.blk.alphabetLut (s.blk.din.extractLsb' 6 6))
            ++ alpha s.blk.alphabetLut (s.blk.din.extractLsb' 0 6))
      ∧ (∃ t, exec .encblk2 s = .next t ∧ t.EndedWith 0 ∧ s.SameAround t ∧ s.SameMemory t ∧ t.blk.rlen.toNat = 4
        ∧ t.blk.written.dout = true ∧ t.blk.written.rlen = true
        ∧ t.blk.dout = ((alpha s.blk.alphabetLut (s.blk.din.extractLsb' 18 6)
            ++ alpha s.blk.alphabetLut (s.blk.din.extractLsb' 12 6))
            ++ alpha s.blk.alphabetLut (BitVec.ofNat 6 (s.blk.din.toNat / 2 ^ 8 % 16 * 4)))
            ++ 0x3D#8)
      ∧ (∃ t, exec .encblk1 s = .next t ∧ t.EndedWith 0 ∧ s.SameAround t ∧ s.SameMemory t ∧ t.blk.rlen.toNat = 4
        ∧ t.blk.written.dout = true ∧ t.blk.written.rlen = true
        ∧ t.blk.dout = ((alpha s.blk.alphabetLut (s.blk.din.extractLsb' 18 6)
            ++ alpha s.blk.alphabetLut (BitVec.ofNat 6 (s.blk.din.toNat / 2 ^ 16 % 4 * 16)))
            ++ 0x3D#8)
            ++ 0x3D#8)

/-- Groups are encoded independently (R71, and R28: no state carries across groups): the encoding of a buffer whose first part
is whole groups is the encodings of the parts, one after the other. -/
def Obligations.EncodingIsGroupwise : Prop :=
  ∀ (a : AlphabetTable) (b c : List Byte), b.length % 3 = 0 →
    encodeBytes a (b ++ c) = encodeBytes a b ++ encodeBytes a c

/-- The laws of R75 for every legal alphabet: the length, the padding (its number, and that it stands at the end only), and that
every other character is a symbol of the alphabet. -/
def Obligations.EncoderLaws : Prop :=
  ∀ (a : AlphabetTable) (b : List Byte), AlphabetLegal a →
    (encodeBytes a b).length = encodedLength b.length
    ∧ encodedLength b.length % 4 = 0
    ∧ (∀ j, j < (encodeBytes a b).length →
        ((encodeBytes a b).getD j 0 = padSymbol ↔ (encodeBytes a b).length - (3 - b.length % 3) % 3 ≤ j))
    ∧ (∀ c ∈ encodeBytes a b, c ≠ padSymbol → IsSymbol a c)

/-- `ENCODE` on regions that fit, with room enough and no common byte (R74): it completes; `RLEN` is the encoded length, the
destination holds the encoding from left to right, and every other byte and register is as it was. -/
def Obligations.EncodeWritesEncoding : Prop :=
  ∀ s : State, s.Inv → s.SrcFits → s.DstFits → encodedLength s.blk.slen.toNat ≤ s.blk.dcap.toNat →
    s.blk.RegionsDisjoint →
    ∃ t, exec .encode s = .next t ∧ t.EndedWith 0 ∧ s.SameAround t
      ∧ t.blk.rlen.toNat = encodedLength s.blk.slen.toNat
      ∧ (∀ j, j < encodedLength s.blk.slen.toNat →
          t.mem.read (s.blk.dst.toNat + j)
            = (encodeBytes s.params.alphabet (s.mem.readBytes s.blk.src.toNat s.blk.slen.toNat)).getD j 0)
      ∧ (∀ a, ¬ (s.blk.dst.toNat ≤ a ∧ a < s.blk.dst.toNat + encodedLength s.blk.slen.toNat) →
          t.mem.read a = s.mem.read a)
      ∧ t.blk.dout = s.blk.dout ∧ t.blk.written.dout = s.blk.written.dout ∧ t.blk.written.rlen = true

/-- The errors of `ENCODE` in their order (R74, R104): `RangeError` unless both regions fit, else `CapacityError` when the
destination is smaller than the encoded length; nothing but `STATUS` is written. -/
def Obligations.EncodeErrorOrder : Prop :=
  ∀ s : State,
    (¬ (s.SrcFits ∧ s.DstFits) → ∃ t, exec .encode s = .next t ∧ s.FailedWith t .range)
    ∧ (s.SrcFits → s.DstFits → s.blk.dcap.toNat < encodedLength s.blk.slen.toNat →
        ∃ t, exec .encode s = .next t ∧ s.FailedWith t .capacity)

/-! ### Decoder -/

/-- `DECBLK` on a well-formed group (R86, R77, R80): the bytes are the 24-bit value of the four sextets cut into lanes; with one
or two padding symbols (`F` = 1) the bits that no byte uses are discarded and the lanes of bytes not emitted are zero. -/
def Obligations.DecblkEmitsBytes : Prop :=
  ∀ s : State, s.Inv →
    (∀ i0 i1 i2 i3 : Sextet,
      s.blk.din.toNat = (((alpha s.params.alphabet i0).toNat * 256 + (alpha s.params.alphabet i1).toNat) * 256
        + (alpha s.params.alphabet i2).toNat) * 256 + (alpha s.params.alphabet i3).toNat →
      ∀ op ∈ [Instr.decblk0, .decblk1],
        ∃ t, exec op s = .next t ∧ t.EndedWith 0 ∧ s.SameAround t ∧ s.SameMemory t
          ∧ t.blk.dout.toNat = ((i0.toNat * 64 + i1.toNat) * 64 + i2.toNat) * 64 + i3.toNat ∧ t.blk.rlen.toNat = 3
          ∧ t.blk.written.dout = true ∧ t.blk.written.rlen = true)
    ∧ (∀ i0 i1 i2 : Sextet,
      s.blk.din.toNat = (((alpha s.params.alphabet i0).toNat * 256 + (alpha s.params.alphabet i1).toNat) * 256
        + (alpha s.params.alphabet i2).toNat) * 256 + 0x3D →
        ∃ t, exec .decblk1 s = .next t ∧ t.EndedWith 0 ∧ s.SameAround t ∧ s.SameMemory t
          ∧ t.blk.dout.toNat = ((i0.toNat * 64 + i1.toNat) * 64 + i2.toNat) / 4 * 256 ∧ t.blk.rlen.toNat = 2
          ∧ t.blk.written.dout = true ∧ t.blk.written.rlen = true)
    ∧ (∀ i0 i1 : Sextet,
      s.blk.din.toNat = (((alpha s.params.alphabet i0).toNat * 256 + (alpha s.params.alphabet i1).toNat) * 256
        + 0x3D) * 256 + 0x3D →
        ∃ t, exec .decblk1 s = .next t ∧ t.EndedWith 0 ∧ s.SameAround t ∧ s.SameMemory t
          ∧ t.blk.dout.toNat = (i0.toNat * 64 + i1.toNat) / 16 * 65536 ∧ t.blk.rlen.toNat = 1
          ∧ t.blk.written.dout = true ∧ t.blk.written.rlen = true)

/-- `DECBLK` raises `DecodeError` for exactly the groups that R99 calls malformed, and with `F` = 0 for every group with
padding; `DOUT`, `RLEN` and memory are then unchanged. -/
def Obligations.DecblkRejectsMalformed : Prop :=
  ∀ s : State, s.Inv → ∀ g : List Byte,
    g = [s.blk.din.extractLsb' 24 8, s.blk.din.extractLsb' 16 8, s.blk.din.extractLsb' 8 8, s.blk.din.extractLsb' 0 8] →
    (∃ t, exec .decblk1 s = .next t
      ∧ (Malformed s.params.alphabet g → s.FailedWith t .decode)
      ∧ (¬ Malformed s.params.alphabet g → t.EndedWith 0))
    ∧ (∃ t, exec .decblk0 s = .next t
      ∧ (Malformed s.params.alphabet g ∨ padSymbol ∈ g → s.FailedWith t .decode)
      ∧ (¬ (Malformed s.params.alphabet g ∨ padSymbol ∈ g) → t.EndedWith 0))

/-- The whole-buffer decoder fails with `LengthError` for exactly the lengths that are no multiple of 4 (R83, R84), and with
`DecodeError` for exactly the malformed texts of R99; on every other text it succeeds. -/
def Obligations.DecoderRejectsExactlyMalformed : Prop :=
  ∀ (a : AlphabetTable) (t : List Byte), AlphabetLegal a →
    (decodeBytes (inverseOf a) t = .error .length ↔ t.length % 4 ≠ 0)
    ∧ (t.length % 4 = 0 → (decodeBytes (inverseOf a) t = .error .decode ↔ Malformed a t))
    ∧ (t.length % 4 = 0 → ¬ Malformed a t → ∃ r, decodeBytes (inverseOf a) t = .ok r)

/-- The decoded length of an accepted text is what the sizing helper computes (R85). -/
def Obligations.DecodedLengthAgrees : Prop :=
  ∀ (inverse : InverseTable) (t r : List Byte),
    decodeBytes inverse t = .ok r → decodedLength t = .ok r.length

/-- `DECODE` on a text that decodes, on regions that fit, with room enough and no common byte (R88): it completes; `RLEN` is the
number of bytes, the destination holds them from left to right, and every other byte and register is as it was. -/
def Obligations.DecodeWritesBytes : Prop :=
  ∀ (s : State) (out : List Byte), s.Inv → s.SrcFits → s.DstFits →
    decodeBytes (inverseOf s.params.alphabet) (s.mem.readBytes s.blk.src.toNat s.blk.slen.toNat) = .ok out →
    out.length ≤ s.blk.dcap.toNat → s.blk.RegionsDisjoint →
    ∃ t, exec .decode s = .next t ∧ t.EndedWith 0 ∧ s.SameAround t
      ∧ t.blk.rlen.toNat = out.length
      ∧ (∀ j, j < out.length → t.mem.read (s.blk.dst.toNat + j) = out.getD j 0)
      ∧ (∀ a, ¬ (s.blk.dst.toNat ≤ a ∧ a < s.blk.dst.toNat + out.length) → t.mem.read a = s.mem.read a)
      ∧ t.blk.dout = s.blk.dout ∧ t.blk.written.dout = s.blk.written.dout ∧ t.blk.written.rlen = true

/-- The errors of `DECODE` in their order (R88, R104): `RangeError`, `LengthError`, `DecodeError` for a malformed text, and
`CapacityError` when the destination is smaller than the decoded length; nothing but `STATUS` is written. -/
def Obligations.DecodeErrorOrder : Prop :=
  ∀ s : State, s.Inv →
    (¬ (s.SrcFits ∧ s.DstFits) → ∃ t, exec .decode s = .next t ∧ s.FailedWith t .range)
    ∧ (s.SrcFits → s.DstFits → s.blk.slen.toNat % 4 ≠ 0 →
        ∃ t, exec .decode s = .next t ∧ s.FailedWith t .length)
    ∧ (s.SrcFits → s.DstFits → s.blk.slen.toNat % 4 = 0 →
        Malformed s.params.alphabet (s.mem.readBytes s.blk.src.toNat s.blk.slen.toNat) →
        ∃ t, exec .decode s = .next t ∧ s.FailedWith t .decode)
    ∧ (s.SrcFits → s.DstFits → ∀ out,
        decodeBytes (inverseOf s.params.alphabet) (s.mem.readBytes s.blk.src.toNat s.blk.slen.toNat) = .ok out →
        s.blk.dcap.toNat < out.length →
        ∃ t, exec .decode s = .next t ∧ s.FailedWith t .capacity)

/-- The laws of R89: decoding inverts encoding on every byte sequence, the decoded length of an encoding is the length of what
was encoded, an encoding has padding at its end only, at most two, and symbols elsewhere, and the converse fails, as for
`TR==`, which decodes to `M` and re-encodes to `TQ==`.  The last two are the spec's own inference from its definitions, and `TR==` names entry 17 of the default alphabet, which is presumed (log entry 12). -/
def Obligations.DecodingInvertsEncoding : Prop :=
  (∀ (a : AlphabetTable) (b : List Byte), AlphabetLegal a →
    decodeBytes (inverseOf a) (encodeBytes a b) = .ok b
    ∧ decodedLength (encodeBytes a b) = .ok b.length
    ∧ ¬ Malformed a (encodeBytes a b))
  ∧ decodeBytes (inverseOf standardAlphabet) [0x54, 0x52, 0x3D, 0x3D] = .ok [0x4D]
  ∧ encodeBytes standardAlphabet [0x4D] = [0x54, 0x51, 0x3D, 0x3D]

/-- A buffer goes through the machine and back: after an `ENCODE` that succeeds, a `DECODE` whose source is what was written and
whose destination fits, holds enough and does not meet it succeeds too, gives the first buffer's length, and writes its bytes
(R74, R88, R89). -/
def Obligations.BufferRoundTrip : Prop :=
  ∀ (s t : State) (base cap : Word), s.Inv → exec .encode s = .next t → t.blk.status.err = 0 →
    base.toNat + cap.toNat ≤ 2 ^ s.params.addrW → s.blk.slen.toNat ≤ cap.toNat →
    (∀ a, ¬ (t.blk.dst.toNat ≤ a ∧ a < t.blk.dst.toNat + t.blk.rlen.toNat ∧ base.toNat ≤ a ∧ a < base.toNat + cap.toNat)) →
    ∃ v, exec .decode { t with blk := { t.blk with src := t.blk.dst, slen := t.blk.rlen, dst := base, dcap := cap } } = .next v
      ∧ v.EndedWith 0
      ∧ v.blk.rlen.toNat = s.blk.slen.toNat
      ∧ ∀ j, j < s.blk.slen.toNat → v.mem.read (base.toNat + j) = s.mem.read (s.blk.src.toNat + j)

/-! ### Sizing -/

/-- `ENCLEN` (R94): `RLEN` is `ceil(SLEN / 3) * 4` when that fits `LEN_W` bits, else `RangeError`; no memory access; every other
word with its `OP` is illegal. -/
def Obligations.EnclenComputesLength : Prop :=
  decodeWord 0x00000007 = .enclen ∧ (∀ w : Word, w.toNat % 16 = 7 → w ≠ 0x00000007 → decodeWord w = .illegal w)
  ∧ ∀ s : State, s.params.Legal →
      (4 * ((s.blk.slen.toNat + 2) / 3) < 2 ^ s.params.lenW →
        ∃ t, exec .enclen s = .next t ∧ t.EndedWith 0 ∧ s.SameAround t ∧ s.SameMemory t
          ∧ t.blk.rlen.toNat = 4 * ((s.blk.slen.toNat + 2) / 3)
          ∧ t.blk.dout = s.blk.dout ∧ t.blk.written.dout = s.blk.written.dout ∧ t.blk.written.rlen = true)
      ∧ (2 ^ s.params.lenW ≤ 4 * ((s.blk.slen.toNat + 2) / 3) →
        ∃ t, exec .enclen s = .next t ∧ s.FailedWith t .range)

/-- `DECLEN` (R95): `RangeError`, then `LengthError`, else `RLEN` is `decodedLength` of the whole source text (R91), which the
spec derives from R95's reading of the last two bytes; it never raises
`DecodeError`; every other word with its `OP` is illegal. -/
def Obligations.DeclenComputesLength : Prop :=
  decodeWord 0x00000008 = .declen ∧ (∀ w : Word, w.toNat % 16 = 8 → w ≠ 0x00000008 → decodeWord w = .illegal w)
  ∧ ∀ s : State, s.Inv →
      (¬ s.SrcFits → ∃ t, exec .declen s = .next t ∧ s.FailedWith t .range)
      ∧ (s.SrcFits → s.blk.slen.toNat % 4 ≠ 0 → ∃ t, exec .declen s = .next t ∧ s.FailedWith t .length)
      ∧ (s.SrcFits → s.blk.slen.toNat % 4 = 0 →
          ∃ t, exec .declen s = .next t ∧ t.EndedWith 0 ∧ s.SameAround t ∧ s.SameMemory t
            ∧ decodedLength (s.mem.readBytes s.blk.src.toNat s.blk.slen.toNat) = .ok t.blk.rlen.toNat
            ∧ t.blk.dout = s.blk.dout ∧ t.blk.written.dout = s.blk.written.dout ∧ t.blk.written.rlen = true)

/-- `decodedLength` does not validate (R92): its values on the four texts of the rule, which `decode` rejects; it depends on the
length and the last two symbols alone; its only error is `LengthError`. -/
def Obligations.DecodedLengthDoesNotValidate : Prop :=
  decodedLength [0x41, 0x42, 0x3D, 0x43] = .ok 2
  ∧ decodedLength [0x41, 0x3D, 0x3D, 0x3D] = .ok 1
  ∧ decodedLength [0x54, 0x2A, 0x3D, 0x3D] = .ok 1
  ∧ decodedLength [0x54, 0x51, 0x3D, 0x3D, 0x54, 0x57, 0x46, 0x75] = .ok 6
  ∧ (∀ t ∈ ([[0x41, 0x42, 0x3D, 0x43], [0x41, 0x3D, 0x3D, 0x3D], [0x54, 0x2A, 0x3D, 0x3D],
      [0x54, 0x51, 0x3D, 0x3D, 0x54, 0x57, 0x46, 0x75]] : List (List Byte)),
      decodeBytes (inverseOf standardAlphabet) t = .error .decode)
  ∧ (∀ t u : List Byte, t.length = u.length →
      t.getD (t.length - 2) 0 = u.getD (u.length - 2) 0 → t.getD (t.length - 1) 0 = u.getD (u.length - 1) 0 →
      decodedLength t = decodedLength u)
  ∧ ∀ (t : List Byte) (e : ErrorKind), decodedLength t = .error e → e = .length

/-- The widths of results (R93): a decoded length never exceeds the text's, an encoded length exceeds the largest `RLEN` exactly
above the bound of the rule, and for such a length `ENCLEN` raises `RangeError` and `ENCODE` on regions that fit raises
`CapacityError`. -/
def Obligations.ResultWidths : Prop :=
  (∀ (t : List Byte) (n : Nat), decodedLength t = .ok n → n ≤ t.length)
  ∧ (∀ w n : Nat, encodedLength n > 2 ^ w - 1 ↔ n > 3 * ((2 ^ w - 1) / 4))
  ∧ 3 * ((2 ^ 32 - 1) / 4) = 3221225469
  ∧ ∀ s : State, s.Inv → s.blk.slen.toNat > 3 * ((2 ^ s.params.lenW - 1) / 4) →
      (∃ t, exec .enclen s = .next t ∧ s.FailedWith t .range)
      ∧ (s.SrcFits → s.DstFits → ∃ t, exec .encode s = .next t ∧ s.FailedWith t .capacity)

/-! ### All commands -/

/-- The end of every command (R25): whenever a command gives a next state, nothing is pending, `BUSY` is 0, and `ERR` is 0 or a
code that R100 lists for it. -/
def Obligations.EveryCommandEnds : Prop :=
  ∀ (i : Instr) (s t : State), exec i s = .next t →
    t.blk.status.busy = false ∧ t.blk.pending = none
    ∧ match i with
      | .alut | .ilut | .encblk1 | .encblk2 | .encblk3 => t.blk.status.err = 0
      | .encode => t.blk.status.err ∈ [0, 1, 5]
      | .decblk0 | .decblk1 => t.blk.status.err ∈ [0, 3]
      | .decode => t.blk.status.err ∈ [0, 1, 2, 3, 5]
      | .enclen => t.blk.status.err ∈ [0, 5]
      | .declen => t.blk.status.err ∈ [0, 2, 5]
      | .illegal _ => t.blk.status.err = 4

/-- Precision of errors (R105): a command that ends with an error leaves every memory byte and every register but `STATUS` as
it was. -/
def Obligations.ErrorsChangeOnlyStatus : Prop :=
  ∀ (i : Instr) (s t : State), exec i s = .next t → t.blk.status.err ≠ 0 →
    t.blk = { s.blk with status := t.blk.status, pending := none }
    ∧ s.SameMemory t ∧ s.SameAround t

/-- What no command changes (R20 to R22, R27): the operand registers, the tables, the other copies, the parameters and the
host. -/
def Obligations.CommandsKeepOperands : Prop :=
  ∀ (i : Instr) (s t : State), exec i s = .next t → s.SameAround t

/-- Where commands write (R39): a byte of memory changes only in `ENCODE` and `DECODE`, only inside `[DST, DST + r)` with `r` the
`RLEN` they write and `r <= DCAP`, and never in the source region. -/
def Obligations.WritesStayInDestination : Prop :=
  ∀ (i : Instr) (s t : State) (a : Nat), s.Inv → exec i s = .next t → t.mem.read a ≠ s.mem.read a →
    (i = .encode ∨ i = .decode)
    ∧ s.blk.dst.toNat ≤ a ∧ a < s.blk.dst.toNat + t.blk.rlen.toNat
    ∧ t.blk.rlen.toNat ≤ s.blk.dcap.toNat
    ∧ ¬ (s.blk.src.toNat ≤ a ∧ a < s.blk.src.toNat + s.blk.slen.toNat)

/-- What commands read (R39): two memories that agree on the source region give the same registers, and the same bytes where
the command writes. -/
def Obligations.ReadsStayInSource : Prop :=
  ∀ (i : Instr) (s t : State) (m : Memory),
    (∀ a, s.blk.src.toNat ≤ a → a < s.blk.src.toNat + s.blk.slen.toNat → m.read a = s.mem.read a) →
    exec i s = .next t →
    ∃ t', exec i { s with mem := m } = .next t' ∧ t'.blk = t.blk
      ∧ ∀ a, (t'.mem.read a = t.mem.read a) ∨ (t'.mem.read a = m.read a ∧ t.mem.read a = s.mem.read a)

/-- Which registers commands read (R51): two copies with the same tables that agree on the operand registers of a command give
the same outcome, the same memory, and, where the command writes them, the same `DOUT` and `RLEN`. -/
def Obligations.CommandsReadOnlyTheirOperands : Prop :=
  ∀ (i : Instr) (s t : State) (c : Block),
    (∀ r ∈ operandRegs i, c.regValue r = s.blk.regValue r) →
    c.alphabetLut = s.blk.alphabetLut → c.inverseLut = s.blk.inverseLut →
    exec i s = .next t →
    ∃ u, exec i { s with blk := c } = .next u ∧ u.mem = t.mem ∧ u.blk.status = t.blk.status
      ∧ (u.blk.dout = t.blk.dout ∨ (u.blk.dout = c.dout ∧ t.blk.dout = s.blk.dout))
      ∧ (u.blk.rlen = t.blk.rlen ∨ (u.blk.rlen = c.rlen ∧ t.blk.rlen = s.blk.rlen))

/-- Overlapping regions (R43): `ENCODE` and `DECODE` fault exactly when they pass their error checks and some byte lies in both
regions; a command that ends with an error does not fault. -/
def Obligations.OverlapFaults : Prop :=
  ∀ s : State,
    (exec .encode s = .fault .overlappingRegions ↔
      s.SrcFits ∧ s.DstFits ∧ encodedLength s.blk.slen.toNat ≤ s.blk.dcap.toNat ∧ ¬ s.blk.RegionsDisjoint)
    ∧ (exec .decode s = .fault .overlappingRegions ↔
      s.SrcFits ∧ s.DstFits ∧ ¬ s.blk.RegionsDisjoint
      ∧ ∃ out, decodeBytes s.blk.inverseLut (s.mem.readBytes s.blk.src.toNat s.blk.slen.toNat) = .ok out
          ∧ out.length ≤ s.blk.dcap.toNat)

/-- No command is refused, and only `ENCODE` and `DECODE` can fault, by overlapping regions alone (R43).  That a command whose
operand registers have no value runs too is the model's choice, log entry 1 (DESIGN CHOICE): R29 and R108 have a model fault
there, and here every register holds a value at reset. -/
def Obligations.CommandsStopOnlyOnOverlap : Prop :=
  ∀ (i : Instr) (s : State),
    (∃ t, exec i s = .next t)
    ∨ (exec i s = .fault .overlappingRegions ∧ (i = .encode ∨ i = .decode) ∧ ¬ s.blk.RegionsDisjoint)

/-! ### The engine and the step -/

/-- A step runs the decoded command: with a command pending, the engine's turn next and no conflict with another running copy,
the step is the command's execution on the state from whose program that turn is taken (R25, R60).  The program that names the
turn is log entry 6, and what counts as a conflict is log entry 10. -/
def Obligations.StepRunsPendingCommand : Prop :=
  ∀ (s : State) (w : Word) (rest : List HostAction), s.program = .engine 0 :: rest →
    s.blk.status.busy = true → s.blk.pending = some w →
    s.others.any (State.copiesConflict { s with program := rest } s.blk) = false →
    step s = exec (decodeWord w) { s with program := rest }

/-- The engine of any copy acts on that copy and on memory alone (R112): its turn is the command executed with that copy in
focus, and every other copy, the parameters and the host's side are as they were. -/
def Obligations.EngineActsOnItsCopy : Prop :=
  ∀ (s t : State) (n : Nat) (b : Block) (w : Word), s.engineStep n = .next t → s.copy n = some b →
    b.status.busy = true → b.pending = some w →
    ∃ u, exec (decodeWord w) (s.focus n) = .next u ∧ (s.focus n).blk = b ∧ t.copy n = some u.blk ∧ t.mem = u.mem
      ∧ (∀ m, m ≠ n → t.copy m = s.copy m)
      ∧ t.params = s.params ∧ t.program = s.program ∧ t.reply = s.reply ∧ t.draws = s.draws

/-- The engine is enabled only while `BUSY` = 1 (R25): its turn on an idle copy changes nothing.  That such a turn can
be named at all is the model's choice, log entry 19. -/
def Obligations.IdleEngineDoesNothing : Prop :=
  ∀ (s : State) (n : Nat) (b : Block), s.copy n = some b → b.status.busy = false → s.engineStep n = .next s

/-- Two running copies whose regions overlap where one of them writes (R112): the turn of either engine is a fault, whichever
two copies they are.  Which regions and which writes count is the model's reading, log entry 10. -/
def Obligations.OverlappingCopiesFault : Prop :=
  ∀ (s : State) (n m : Nat) (b c : Block) (w : Word), n ≠ m → s.copy n = some b → s.copy m = some c →
    b.status.busy = true → b.pending = some w → c.status.busy = true →
    ((s.runningWriter b = true ∧ ∃ a, b.dstRegion.contains a = true
        ∧ (c.srcRegion.contains a = true ∨ c.dstRegion.contains a = true))
      ∨ (s.runningWriter c = true ∧ ∃ a, c.dstRegion.contains a = true
        ∧ (b.srcRegion.contains a = true ∨ b.dstRegion.contains a = true))) →
    s.engineStep n = .fault .copiesOverlap

/-- A running copy is changed by nothing but its own engine (R26, R118, R119): whatever other action the step performs, every
register of the copy and its pending word are as they were.  That the step's action stands in a program is log entry 6. -/
def Obligations.RunningCopyIsStable : Prop :=
  ∀ (s t : State) (n : Nat) (b : Block) (a : HostAction) (rest : List HostAction),
    s.program = a :: rest → a ≠ .engine n → a ≠ .wait n → s.copy n = some b → b.status.busy = true →
    step s = .next t → t.copy n = some b

/-- A register that has a value keeps having one (R29, R117): whatever action a step performs but the reset input of that copy,
every operand register of a command that the host has written stays written, so that the next command needs only what
changes. -/
def Obligations.OperandsStayWritten : Prop :=
  ∀ (s t : State) (n : Nat) (b : Block) (i : Instr), s.copy n = some b → b.OperandsWritten i →
    s.program.head? ≠ some (.reset n) → step s = .next t →
    ∃ c, t.copy n = some c ∧ c.OperandsWritten i

/-- An engine's turn on a platform with one copy, where the host follows R117 step 3: the safe step gives the same outcome and
memory whatever the registers hold that have no value, and, where the command writes them, the same `DOUT` and `RLEN`, so that
log entry 1 decides nothing in it.  It says nothing of the host's memory accesses beside a busy copy (log entry 9) or of the
conflict of several copies (log entry 10), which read `SRC`, `SLEN`, `DST` and `DCAP` whatever the command. -/
def Obligations.EngineTurnOnOneCopyIgnoresUnwrittenRegisters : Prop :=
  ∀ (s t : State) (c : Block), s.others = [] → s.SafeStep → s.engineTurn = some 0 → s.blk.status.busy = true →
    (∀ r, s.blk.hasValue r = true → c.regValue r = s.blk.regValue r) →
    c.status = s.blk.status → c.pending = s.blk.pending →
    c.alphabetLut = s.blk.alphabetLut → c.inverseLut = s.blk.inverseLut →
    step s = .next t →
    ∃ u, step { s with blk := c } = .next u ∧ u.mem = t.mem ∧ u.program = t.program ∧ u.blk.status = t.blk.status
      ∧ (u.blk.dout = t.blk.dout ∨ (u.blk.dout = c.dout ∧ t.blk.dout = s.blk.dout))
      ∧ (u.blk.rlen = t.blk.rlen ∨ (u.blk.rlen = c.rlen ∧ t.blk.rlen = s.blk.rlen))

/-- Host accesses that are no register writes change no register of any copy (R17, R113): reads on the bus and both kinds of
memory access. -/
def Obligations.ReadsAndMemoryAccessesKeepRegisters : Prop :=
  ∀ (s t : State) (a : HostAction) (rest : List HostAction), s.program = a :: rest →
    ((∃ addr width, a = .busRead addr width) ∨ (∃ addr, a = .memRead addr) ∨ (∃ addr v, a = .memWrite addr v)) →
    step s = .next t →
    t.blk = s.blk ∧ t.others = s.others ∧ t.params = s.params ∧ t.program = rest
    ∧ ((∃ addr v, a = .memWrite addr v ∧ t.mem.read addr = v ∧ ∀ x, x ≠ addr → t.mem.read x = s.mem.read x)
      ∨ t.mem = s.mem)

/-- `WAIT` ends: while the copy runs, a step that gives a next state takes its command to the end and goes on waiting; once it is
idle the step reads `STATUS` with `BUSY` = 0 and the program goes on (R57).  That the engine gets its turn from a `WAIT` on a
busy copy is the model's choice, log entry 7 (DESIGN CHOICE): R124 says only that its step is eventually taken. -/
def Obligations.WaitEnds : Prop :=
  ∀ (s : State) (n : Nat) (b : Block) (rest : List HostAction), s.Inv → s.program = .wait n :: rest → s.copy n = some b →
    (b.status.busy = false → step s = .next { s with program := rest, reply := .word b.status.word }
      ∧ b.status.word.getLsbD 0 = false)
    ∧ (b.status.busy = true → ∀ t, step s = .next t →
        t.program = .wait n :: rest ∧ ∃ c, t.copy n = some c ∧ c.status.busy = false)

/-- With no host action left, a block with no command running waits for ever (R114); otherwise each step that gives a next
state ends one running command.  That an empty program gives each step to a busy copy is the model's choice, log entry 7
(DESIGN CHOICE): R124 says only that the engine's step is eventually taken. -/
def Obligations.RunningCommandsComplete : Prop :=
  ∀ s : State, s.Inv → s.program = [] →
    ((∀ b ∈ s.blk :: s.others, b.status.busy = false) → step s = .next s)
    ∧ ((∃ b ∈ s.blk :: s.others, b.status.busy = true) → ∀ t, step s = .next t →
        (t.blk :: t.others).countP (fun b => b.status.busy) + 1 = (s.blk :: s.others).countP (fun b => b.status.busy))

/-! ### The register port -/

/-- `STATUS` as a word (R19): `BUSY` at bit 0, `ERR` at bits 7:4, every other bit 0. -/
def Obligations.StatusWordFields : Prop :=
  ∀ st : Status, st.word.toNat = st.err.toNat * 16 + (if st.busy then 1 else 0)

/-- A write to `CMD` (R18): accepted when `BUSY` = 0, setting `ERR` 0 and `BUSY` 1 and handing the word to the engine, with every
other register and copy as it was; dropped without a trace when `BUSY` = 1.  The word is not readable back. -/
def Obligations.CmdWriteAccepts : Prop :=
  ∀ (s : State) (addr n : Nat) (b : Block) (w : Word), s.copyAt addr = some (n, b) → addr = b.regBase →
    (b.status.busy = false →
      ∃ t, s.busWrite addr 32 w = .next t ∧ t = s.setCopy n { b with status := ⟨true, 0⟩, pending := some w }
        ∧ t.copy n = some { b with status := ⟨true, 0⟩, pending := some w }
        ∧ ∀ m, m ≠ n → t.copy m = s.copy m)
    ∧ (b.status.busy = true → s.busWrite addr 32 w = .next s)
    ∧ s.busRead addr 32 = .next { s with reply := .word 0 }

/-- Register writes that have no effect (R17): while `BUSY` = 1 every write, and at any time a write to `STATUS`, `DOUT`, `RLEN`
or a reserved offset. -/
def Obligations.IneffectiveRegisterWrites : Prop :=
  ∀ (s : State) (addr n : Nat) (b : Block) (v : Word), s.copyAt addr = some (n, b) → (addr - b.regBase) % 4 = 0 →
    (b.status.busy = true
      ∨ addr - b.regBase = 0x04 ∨ addr - b.regBase = 0x1C ∨ addr - b.regBase = 0x20 ∨ 0x24 ≤ addr - b.regBase) →
    s.busWrite addr 32 v = .next s

/-- Operand writes (R20, R21, R22): while `BUSY` = 0 a write to an operand register stores the bits of its width, drops the bits
above, and changes nothing else but that the register now has a value. -/
def Obligations.OperandWritesStore : Prop :=
  ∀ (s : State) (addr n : Nat) (b : Block) (v : Word), s.copyAt addr = some (n, b) → b.status.busy = false →
    (addr = b.regBase + 0x08 → s.busWrite addr 32 v = .next (s.setCopy n
      { b with src := BitVec.ofNat 32 (v.toNat % 2 ^ s.params.addrW), written := { b.written with src := true } }))
    ∧ (addr = b.regBase + 0x0C → s.busWrite addr 32 v = .next (s.setCopy n
      { b with slen := BitVec.ofNat 32 (v.toNat % 2 ^ s.params.lenW), written := { b.written with slen := true } }))
    ∧ (addr = b.regBase + 0x10 → s.busWrite addr 32 v = .next (s.setCopy n
      { b with dst := BitVec.ofNat 32 (v.toNat % 2 ^ s.params.addrW), written := { b.written with dst := true } }))
    ∧ (addr = b.regBase + 0x14 → s.busWrite addr 32 v = .next (s.setCopy n
      { b with dcap := BitVec.ofNat 32 (v.toNat % 2 ^ s.params.lenW), written := { b.written with dcap := true } }))
    ∧ (addr = b.regBase + 0x18 → s.busWrite addr 32 v = .next (s.setCopy n
      { b with din := v, written := { b.written with din := true } }))

/-- Register reads (R16, R17): `CMD` and the reserved offsets read as 0, `STATUS` as its word, and every other register that has
a value as that value; no register, copy or byte of memory changes. -/
def Obligations.RegisterReadsReturn : Prop :=
  ∀ (s : State) (addr n : Nat) (b : Block), s.copyAt addr = some (n, b) →
    (addr = b.regBase → s.busRead addr 32 = .next { s with reply := .word 0 })
    ∧ ((addr - b.regBase) % 4 = 0 → b.regBase + 0x24 ≤ addr → s.busRead addr 32 = .next { s with reply := .word 0 })
    ∧ (addr = b.regBase + 0x04 → s.busRead addr 32 = .next { s with reply := .word b.status.word })
    ∧ (addr = b.regBase + 0x08 → b.written.src = true → s.busRead addr 32 = .next { s with reply := .word b.src })
    ∧ (addr = b.regBase + 0x0C → b.written.slen = true → s.busRead addr 32 = .next { s with reply := .word b.slen })
    ∧ (addr = b.regBase + 0x10 → b.written.dst = true → s.busRead addr 32 = .next { s with reply := .word b.dst })
    ∧ (addr = b.regBase + 0x14 → b.written.dcap = true → s.busRead addr 32 = .next { s with reply := .word b.dcap })
    ∧ (addr = b.regBase + 0x18 → b.written.din = true → s.busRead addr 32 = .next { s with reply := .word b.din })
    ∧ (addr = b.regBase + 0x1C → b.written.dout = true → s.busRead addr 32 = .next { s with reply := .word b.dout })
    ∧ (addr = b.regBase + 0x20 → b.written.rlen = true → s.busRead addr 32 = .next { s with reply := .word b.rlen })

/-- A host read of a register that has no value (R29): it completes with a value whose bits above the register's width are 0
and of which nothing else is said; nothing but the reply and the model's own counter of draws (log entry 2) changes. -/
def Obligations.UnwrittenRegisterReadsFreeValue : Prop :=
  ∀ (s : State) (addr n : Nat) (b : Block), s.params.Legal → s.copyAt addr = some (n, b) →
    ∃ v : Word,
      ((addr = b.regBase + 0x08 ∧ b.written.src = false) ∨ (addr = b.regBase + 0x10 ∧ b.written.dst = false) →
        v.toNat < 2 ^ s.params.addrW ∧ s.busRead addr 32 = .next { s with reply := .word v, draws := s.draws + 1 })
      ∧ ((addr = b.regBase + 0x0C ∧ b.written.slen = false) ∨ (addr = b.regBase + 0x14 ∧ b.written.dcap = false)
          ∨ (addr = b.regBase + 0x20 ∧ b.written.rlen = false) →
        v.toNat < 2 ^ s.params.lenW ∧ s.busRead addr 32 = .next { s with reply := .word v, draws := s.draws + 1 })
      ∧ ((addr = b.regBase + 0x18 ∧ b.written.din = false) ∨ (addr = b.regBase + 0x1C ∧ b.written.dout = false) →
        s.busRead addr 32 = .next { s with reply := .word v, draws := s.draws + 1 })

/-- An access that is not 32 bits wide at a 4-byte-aligned offset is refused (R17), by reads and by writes. -/
def Obligations.ImproperAccessesRefused : Prop :=
  ∀ (s : State) (addr width n : Nat) (b : Block) (v : Word), s.copyAt addr = some (n, b) →
    (width ≠ 32 ∨ (addr - b.regBase) % 4 ≠ 0) →
    s.busWrite addr width v = .refused .accessWidth ∧ s.busRead addr width = .refused .accessWidth

/-- A copy's register window is its own 64 bytes (R16, R112): with the windows of the invariant, a bus address is given to the
copy whose window holds it. -/
def Obligations.WindowSelectsCopy : Prop :=
  ∀ (s : State) (n : Nat) (b : Block) (off : Nat), s.Inv → s.copy n = some b → off < 64 →
    s.copyAt (b.regBase + off) = some (n, b)

/-! ### The host and the data memory -/

/-- Host accesses while a command runs (R42): a write to a byte of the source or destination region of a running copy is a
fault, a read of a destination byte returns a free value (log entry 2), and every other access acts on memory as usual.
Which regions those are is the model's reading, log entry 9. -/
def Obligations.HostMemoryAccesses : Prop :=
  ∀ (s : State) (a : Nat) (v : Byte), a < 2 ^ s.params.addrW →
    ((∃ b ∈ s.blk :: s.others, b.status.busy = true ∧ (b.srcRegion.contains a = true ∨ b.dstRegion.contains a = true)) →
      s.hostMemWrite a v = .fault .hostWriteWhileBusy)
    ∧ ((∀ b ∈ s.blk :: s.others, b.status.busy = true → b.srcRegion.contains a = false ∧ b.dstRegion.contains a = false) →
      ∃ t, s.hostMemWrite a v = .next t ∧ t = { s with mem := t.mem } ∧ t.mem.read a = v
        ∧ ∀ x, x ≠ a → t.mem.read x = s.mem.read x)
    ∧ ((∃ b ∈ s.blk :: s.others, b.status.busy = true ∧ b.dstRegion.contains a = true) →
      ∃ free, s.hostMemRead a = .next { s with reply := .byte free, draws := s.draws + 1 })
    ∧ ((∀ b ∈ s.blk :: s.others, b.status.busy = true → b.dstRegion.contains a = false) →
      s.hostMemRead a = .next { s with reply := .byte (s.mem.read a) })

/-! ### Reset -/

/-- The values that R30 states for the end of reset: `STATUS` 0, nothing pending, no value in the seven operand and result
registers, the tables' contents; and the machine starts with the default parameters of R8, as the model's data (log entries 4
and 12). -/
def Obligations.ResetValues : Prop :=
  State.reset.blk.status.word = 0 ∧ State.reset.blk.pending = none
  ∧ (∀ r ∈ [Reg.src, .slen, .dst, .dcap, .din, .dout, .rlen], State.reset.blk.hasValue r = false)
  ∧ State.reset.blk.alphabetLut = State.reset.params.alphabet
  ∧ State.reset.blk.inverseLut = inverseOf State.reset.params.alphabet
  ∧ State.reset.params.addrW = 32 ∧ State.reset.params.lenW = 32 ∧ State.reset.params.alphabet = standardAlphabet

/-- The reset input (R113, R116): an idle copy takes the values of R30 at its own window; memory, the parameters and every other
copy are not touched; with `BUSY` = 1 the model faults.  That the reset input acts on one copy and leaves the
others is log entry 18 (DEDUCED), and that nothing follows a reset while busy is log entry 11 (DEDUCED). -/
def Obligations.ResetInputRestores : Prop :=
  ∀ (s : State) (n : Nat) (b : Block), s.copy n = some b →
    (b.status.busy = true → s.hostReset n = .fault .resetWhileBusy)
    ∧ (b.status.busy = false → ∃ t c, s.hostReset n = .next t ∧ t.copy n = some c
        ∧ c.status.word = 0 ∧ c.pending = none ∧ c.regBase = b.regBase
        ∧ (∀ r ∈ [Reg.src, .slen, .dst, .dcap, .din, .dout, .rlen], c.hasValue r = false)
        ∧ c.alphabetLut = s.params.alphabet ∧ c.inverseLut = inverseOf s.params.alphabet
        ∧ t.mem = s.mem ∧ t.params = s.params ∧ t.program = s.program ∧ ∀ m, m ≠ n → t.copy m = s.copy m)

/-! ### The whole machine -/

/-- The command word placed for the next step by `withFetchWord` is executed by it, on a platform with one copy.
`withFetchWord` and the program it puts the engine's turn into are the model's choice, log entry 6 (DESIGN CHOICE). -/
def Obligations.PlacedWordRunsNext : Prop :=
  ∀ (s : State) (w : Nat), s.others = [] →
    step (s.withFetchWord 32 w)
      = exec (decodeWord (BitVec.ofNat 32 w)) { s with blk := s.blk.accept (BitVec.ofNat 32 w) }

/-- The host's handshake (R117 step 4): on one idle copy, the program `WR CMD` then `WAIT` takes three steps, which accept the
word, execute it once, and read `STATUS` with the outcome.  That there are three steps, one action each, is the model's choice,
log entries 6 and 7 (DESIGN CHOICE): the program is a list, and `WAIT` on a busy copy gives its engine the turn. -/
def Obligations.IssueAndWait : Prop :=
  ∀ (s u : State) (w : Word), s.others = [] → s.blk.status.busy = false →
    s.program = [.busWrite s.blk.regBase 32 w, .wait 0] →
    exec (decodeWord w) { s with blk := s.blk.accept w, program := [.wait 0] } = .next u →
    Host.Core.run core 3 s = .next { u with program := [], reply := .word u.blk.status.word }

/-- The invariant holds after reset, with the values that the model chose for what reset leaves open (log entries 1, 3, 4
and 5). -/
def Obligations.ResetMeetsInvariant : Prop := State.reset.Inv

/-- Every step keeps the invariant: legal parameters, codes 0..5 in `ERR`, `pending` present exactly while `BUSY` = 1, `ERR` 0
while `BUSY` = 1, operand and length registers within their widths, the tables' contents, memory in canonical form within the
address space, and windows of their own.  The canonical form is the model's own (log entry 3). -/
def Obligations.StepKeepsInvariant : Prop :=
  ∀ s t : State, s.Inv → step s = .next t → t.Inv
end

