-- ==== Sys2Proof/Laws/Bits.lean ====
section
/-! SUPPORT. The bit formulas of 41_encoder.md R69 and 42_decoder.md R77 as arithmetic, one lemma per function, and the lanes of
`DIN` and `DOUT` (30_encoding.md R52, R53). -/

namespace Sys2Proof.Machine

theorem shl_or_toNat {a k b : Nat} (h : b < 2 ^ k) : a <<< k ||| b = a * 2 ^ k + b := by
  rw [← Nat.shiftLeft_add_eq_or_of_lt h, Nat.shiftLeft_eq]

theorem sextet0_toNat (b0 : Byte) : (sextet0 b0).toNat = b0.toNat / 4 := by
  have := b0.isLt
  simp only [sextet0, BitVec.toNat_setWidth, BitVec.toNat_ushiftRight, Nat.shiftRight_eq_div_pow]
  omega

theorem sextet1_toNat (b0 b1 : Byte) : (sextet1 b0 b1).toNat = b0.toNat % 4 * 16 + b1.toNat / 16 := by
  have h0 := b0.isLt
  have h1 := b1.isLt
  have hm : (b0 &&& 3).toNat = b0.toNat % 4 := by
    rw [BitVec.toNat_and]; exact Nat.and_two_pow_sub_one_eq_mod b0.toNat 2
  have hs : ((b0 &&& 3) <<< 4).toNat = (b0.toNat % 4) <<< 4 := by
    rw [BitVec.toNat_shiftLeft, hm, Nat.shiftLeft_eq]; omega
  simp only [sextet1, BitVec.toNat_setWidth, BitVec.toNat_or, hs, BitVec.toNat_ushiftRight]
  rw [shl_or_toNat (by rw [Nat.shiftRight_eq_div_pow]; omega), Nat.shiftRight_eq_div_pow]
  omega

theorem sextet2_toNat (b1 b2 : Byte) : (sextet2 b1 b2).toNat = b1.toNat % 16 * 4 + b2.toNat / 64 := by
  have h0 := b1.isLt
  have h1 := b2.isLt
  have hm : (b1 &&& 15).toNat = b1.toNat % 16 := by
    rw [BitVec.toNat_and]; exact Nat.and_two_pow_sub_one_eq_mod b1.toNat 4
  have hs : ((b1 &&& 15) <<< 2).toNat = (b1.toNat % 16) <<< 2 := by
    rw [BitVec.toNat_shiftLeft, hm, Nat.shiftLeft_eq]; omega
  simp only [sextet2, BitVec.toNat_setWidth, BitVec.toNat_or, hs, BitVec.toNat_ushiftRight]
  rw [shl_or_toNat (by rw [Nat.shiftRight_eq_div_pow]; omega), Nat.shiftRight_eq_div_pow]
  omega

theorem sextet3_toNat (b2 : Byte) : (sextet3 b2).toNat = b2.toNat % 64 := by
  have hm : (b2 &&& 63).toNat = b2.toNat % 64 := by
    rw [BitVec.toNat_and]; exact Nat.and_two_pow_sub_one_eq_mod b2.toNat 6
  simp only [sextet3, BitVec.toNat_setWidth, hm]
  omega

/-- On values of sextets (R77). -/
theorem decoded0_toNat {v0 v1 : Byte} (h0 : v0.toNat < 64) (h1 : v1.toNat < 64) :
    (decoded0 v0 v1).toNat = v0.toNat * 4 + v1.toNat / 16 := by
  have hs : (v0 <<< 2).toNat = v0.toNat <<< 2 := by
    rw [BitVec.toNat_shiftLeft, Nat.shiftLeft_eq]; omega
  simp only [decoded0, BitVec.toNat_or, hs, BitVec.toNat_ushiftRight]
  rw [shl_or_toNat (by rw [Nat.shiftRight_eq_div_pow]; omega), Nat.shiftRight_eq_div_pow]
  omega

/-- The truncation keeps the low four bits of `v1` (R77). -/
theorem decoded1_toNat {v1 v2 : Byte} (h2 : v2.toNat < 64) :
    (decoded1 v1 v2).toNat = v1.toNat % 16 * 16 + v2.toNat / 4 := by
  have hs : (v1 <<< 4).toNat = (v1.toNat % 16) <<< 4 := by
    rw [BitVec.toNat_shiftLeft, Nat.shiftLeft_eq, Nat.shiftLeft_eq]; omega
  simp only [decoded1, BitVec.toNat_or, hs, BitVec.toNat_ushiftRight]
  rw [shl_or_toNat (by rw [Nat.shiftRight_eq_div_pow]; omega), Nat.shiftRight_eq_div_pow]
  omega

theorem decoded2_toNat {v2 v3 : Byte} (h3 : v3.toNat < 64) :
    (decoded2 v2 v3).toNat = v2.toNat % 4 * 64 + v3.toNat := by
  have h2 := v2.isLt
  have hm : (v2 &&& 3).toNat = v2.toNat % 4 := by
    rw [BitVec.toNat_and]; exact Nat.and_two_pow_sub_one_eq_mod v2.toNat 2
  have hs : ((v2 &&& 3) <<< 6).toNat = (v2.toNat % 4) <<< 6 := by
    rw [BitVec.toNat_shiftLeft, hm, Nat.shiftLeft_eq]; omega
  simp only [decoded2, BitVec.toNat_or, hs]
  rw [shl_or_toNat (by omega)]
  omega

theorem sextetLane_toNat (d : Word) : (sextetLane d).toNat = d.toNat % 64 := by simp [sextetLane]
theorem lane0_toNat (d : Word) : (lane0 d).toNat = d.toNat % 256 := by simp [lane0]
theorem lane1_toNat (d : Word) : (lane1 d).toNat = d.toNat / 256 % 256 := by
  simp [lane1, Nat.shiftRight_eq_div_pow]
theorem lane2_toNat (d : Word) : (lane2 d).toNat = d.toNat / 65536 % 256 := by
  simp [lane2, Nat.shiftRight_eq_div_pow]
theorem lane3_toNat (d : Word) : (lane3 d).toNat = d.toNat / 16777216 := by
  have := d.isLt
  simp [lane3, Nat.shiftRight_eq_div_pow]; omega

theorem packLanes_toNat (c0 c1 c2 c3 : Byte) :
    (packLanes c0 c1 c2 c3).toNat = ((c0.toNat * 256 + c1.toNat) * 256 + c2.toNat) * 256 + c3.toNat := by
  unfold packLanes
  rw [BitVec.toNat_append, BitVec.toNat_append, BitVec.toNat_append, shl_or_toNat c1.isLt, shl_or_toNat c2.isLt,
    shl_or_toNat c3.isLt]
  omega

end Sys2Proof.Machine
end

