-- ==== Sys2Proof/Laws/Memory.lean ====
section
/-! SUPPORT. The laws of the data memory: a read after a write, what a write leaves alone, and that every operation keeps
the canonical form. -/

namespace Sys2Proof.Machine

theorem lookupCell_filter_same (a : Nat) (cs : List Host.Cell) :
    lookupCell a (cs.filter (fun c => c.1 != a)) = Memory.unlisted := by
  induction cs with
  | nil => rfl
  | cons c cs ih =>
    by_cases h : c.1 = a
    · simpa [h] using ih
    · simp [h, lookupCell, ih]

theorem lookupCell_filter_other {a x : Nat} (h : x ≠ a) (cs : List Host.Cell) :
    lookupCell x (cs.filter (fun c => c.1 != a)) = lookupCell x cs := by
  induction cs with
  | nil => rfl
  | cons c cs ih =>
    by_cases hc : c.1 = a
    · simp [hc, lookupCell, ih, Ne.symm h]
    · simp [hc, lookupCell, ih]

theorem lookupCell_insert_same (a : Nat) (b : Byte) (cs : List Host.Cell) :
    lookupCell a (insertCell a b cs) = b := by
  induction cs with
  | nil => simp [insertCell, lookupCell]
  | cons c cs ih =>
    simp only [insertCell]
    split
    · simp [lookupCell]
    · split
      · simp [lookupCell]
      · simp [lookupCell, *]

theorem lookupCell_insert_other {a x : Nat} (h : x ≠ a) (b : Byte) (cs : List Host.Cell) :
    lookupCell x (insertCell a b cs) = lookupCell x cs := by
  induction cs with
  | nil => simp [insertCell, lookupCell, Ne.symm h]
  | cons c cs ih =>
    simp only [insertCell]
    split
    · simp [lookupCell, Ne.symm h]
    · split
      · rename_i hc
        simp [lookupCell, hc, Ne.symm h]
      · simp [lookupCell, ih]

/-- A read after a write to the same address gives the byte written (R37). -/
@[simp] theorem Memory.read_write_same (m : Memory) (a : Nat) (b : Byte) : (m.write a b).read a = b := by
  unfold Memory.write Memory.read
  split
  · next h => simpa [h] using lookupCell_filter_same a m.cells
  · exact lookupCell_insert_same a b m.cells

/-- A write leaves every other address alone (R37). -/
theorem Memory.read_write_other (m : Memory) {a x : Nat} (b : Byte) (h : x ≠ a) :
    (m.write a b).read x = m.read x := by
  unfold Memory.write Memory.read
  split
  · exact lookupCell_filter_other h m.cells
  · exact lookupCell_insert_other h b m.cells

/-- What every address reads as after `MemWrite` (R12, R34). -/
theorem Memory.read_writeBytes (m : Memory) (a x : Nat) (bs : List Byte) :
    (m.writeBytes a bs).read x = if a ≤ x ∧ x < a + bs.length then bs.getD (x - a) 0 else m.read x := by
  induction bs generalizing m a with
  | nil => simp [Memory.writeBytes]
  | cons b bs ih =>
    rw [Memory.writeBytes, ih]
    by_cases hx : x = a
    · subst hx; simp
    · rw [Memory.read_write_other m b hx]
      by_cases hin : a + 1 ≤ x ∧ x < a + 1 + bs.length
      · obtain ⟨k, rfl⟩ : ∃ k, x = a + 1 + k := ⟨x - (a + 1), by omega⟩
        have : a + 1 + k - a = k + 1 := by omega
        simp [this]
        split <;> split <;> first | rfl | omega
      · have : ¬ (a ≤ x ∧ x < a + (b :: bs).length) := by simp; omega
        rw [if_neg hin, if_neg this]

/-- Inside the range written. -/
theorem Memory.read_writeBytes_in (m : Memory) {a j : Nat} {bs : List Byte} (h : j < bs.length) :
    (m.writeBytes a bs).read (a + j) = bs.getD j 0 := by
  rw [Memory.read_writeBytes, if_pos ⟨by omega, by omega⟩]
  congr 1; omega

/-- Outside the range written. -/
theorem Memory.read_writeBytes_out (m : Memory) {a x : Nat} {bs : List Byte}
    (h : ¬ (a ≤ x ∧ x < a + bs.length)) : (m.writeBytes a bs).read x = m.read x := by
  rw [Memory.read_writeBytes, if_neg h]

@[simp] theorem Memory.readBytes_length (m : Memory) (a n : Nat) : (m.readBytes a n).length = n := by
  simp [Memory.readBytes]

theorem Memory.readBytes_getD (m : Memory) {a n j : Nat} (h : j < n) : (m.readBytes a n).getD j 0 = m.read (a + j) := by
  simp [Memory.readBytes, h]

/-- Two memories that agree on a range give the same sequence. -/
theorem Memory.readBytes_congr {m m' : Memory} {a n : Nat} (h : ∀ j, j < n → m'.read (a + j) = m.read (a + j)) :
    m'.readBytes a n = m.readBytes a n :=
  List.map_congr_left fun i hi => h i (by simpa using hi)

theorem mem_insertCell {a : Nat} {b : Byte} {cs : List Host.Cell} {c : Host.Cell} (h : c ∈ insertCell a b cs) :
    c = (a, b) ∨ c ∈ cs := by
  induction cs with
  | nil => simpa [insertCell] using h
  | cons d cs ih =>
    simp only [insertCell] at h
    split at h
    · simpa using h
    · split at h
      · rcases List.mem_cons.1 h with h | h
        · exact .inl h
        · exact .inr (List.mem_cons_of_mem _ h)
      · rcases List.mem_cons.1 h with h | h
        · exact .inr (h ▸ List.mem_cons_self)
        · exact (ih h).imp_right (List.mem_cons_of_mem _)

theorem pairwise_insertCell (a : Nat) (b : Byte) {cs : List Host.Cell}
    (h : cs.Pairwise (fun x y => x.1 < y.1)) : (insertCell a b cs).Pairwise (fun x y => x.1 < y.1) := by
  induction cs with
  | nil => simp [insertCell]
  | cons d cs ih =>
    obtain ⟨hd, hcs⟩ := List.pairwise_cons.1 h
    simp only [insertCell]
    split
    · next hlt =>
      refine List.pairwise_cons.2 ⟨fun y hy => ?_, h⟩
      rcases List.mem_cons.1 hy with rfl | hy
      · exact hlt
      · exact hlt.trans (hd y hy)
    · split
      · next he => exact List.pairwise_cons.2 ⟨fun y hy => he ▸ hd y hy, hcs⟩
      · refine List.pairwise_cons.2 ⟨fun y hy => ?_, ih hcs⟩
        rcases mem_insertCell hy with rfl | hy
        · simp; omega
        · exact hd y hy

/-- A write keeps the canonical form. -/
theorem Memory.wf_write {m : Memory} (h : m.wf) (a : Nat) (b : Byte) : (m.write a b).wf := by
  unfold Memory.write
  split
  · exact ⟨h.1.filter _, fun c hc => h.2 c (List.mem_filter.1 hc).1⟩
  · next hb =>
    refine ⟨pairwise_insertCell a b h.1, fun c hc => ?_⟩
    rcases mem_insertCell hc with rfl | hc
    · exact hb
    · exact h.2 c hc

/-- `MemWrite` keeps the canonical form. -/
theorem Memory.wf_writeBytes {m : Memory} (h : m.wf) (a : Nat) (bs : List Byte) : (m.writeBytes a bs).wf := by
  induction bs generalizing m a with
  | nil => exact h
  | cons b bs ih => exact ih (Memory.wf_write h a b) (a + 1)

/-- A write lists no address but its own and those listed before. -/
theorem Memory.mem_write {m : Memory} {a : Nat} {b : Byte} {c : Host.Cell} (h : c ∈ (m.write a b).cells) :
    c.1 = a ∨ c ∈ m.cells := by
  unfold Memory.write at h
  split at h
  · exact .inr (List.mem_filter.1 h).1
  · rcases mem_insertCell h with rfl | h
    · exact .inl rfl
    · exact .inr h

/-- `MemWrite` lists no address outside the range written but those listed before. -/
theorem Memory.mem_writeBytes {m : Memory} {a : Nat} {bs : List Byte} {c : Host.Cell}
    (h : c ∈ (m.writeBytes a bs).cells) : (a ≤ c.1 ∧ c.1 < a + bs.length) ∨ c ∈ m.cells := by
  induction bs generalizing m a with
  | nil => exact .inr h
  | cons b bs ih =>
    rcases ih h with hc | hc
    · left; simp; omega
    · rcases Memory.mem_write hc with hc | hc
      · left; simp; omega
      · exact .inr hc

/-- Equal memories are equal data: two canonical memories that read alike at every address are the same list. -/
theorem Memory.ext_of_read {m m' : Memory} (h : m.wf) (h' : m'.wf) (hr : ∀ a, m.read a = m'.read a) : m = m' := by
  obtain ⟨cs⟩ := m
  obtain ⟨cs'⟩ := m'
  have key : ∀ (cs cs' : List Host.Cell), cs.Pairwise (fun x y => x.1 < y.1) → cs'.Pairwise (fun x y => x.1 < y.1) →
      (∀ c ∈ cs, c.2 ≠ Memory.unlisted) → (∀ c ∈ cs', c.2 ≠ Memory.unlisted) →
      (∀ a, lookupCell a cs = lookupCell a cs') → cs = cs' := by
    have below : ∀ (a : Nat) (cs : List Host.Cell), (∀ c ∈ cs, a < c.1) → lookupCell a cs = Memory.unlisted := by
      intro a cs
      induction cs with
      | nil => intro _; rfl
      | cons c cs ih =>
        intro hb
        have hc := hb c List.mem_cons_self
        rw [lookupCell, if_neg (by omega)]
        exact ih fun d hd => hb d (List.mem_cons_of_mem _ hd)
    intro cs
    induction cs with
    | nil =>
      rintro (_ | ⟨d, ds⟩) _ h2 _ h4 hr
      · rfl
      · have := hr d.1
        simp [lookupCell] at this
        exact absurd this.symm (h4 d List.mem_cons_self)
    | cons c cs ih =>
      rintro (_ | ⟨d, ds⟩) h1 h2 h3 h4 hr
      · have := hr c.1
        simp [lookupCell] at this
        exact absurd this (h3 c List.mem_cons_self)
      · obtain ⟨hc, hcs⟩ := List.pairwise_cons.1 h1
        obtain ⟨hd, hds⟩ := List.pairwise_cons.1 h2
        have hcd : c.1 = d.1 := by
          rcases Nat.lt_trichotomy c.1 d.1 with hlt | heq | hlt
          · have := hr c.1
            rw [lookupCell, if_pos rfl, below c.1 (d :: ds) (by
              intro e he
              rcases List.mem_cons.1 he with rfl | he
              · exact hlt
              · exact hlt.trans (hd e he))] at this
            exact absurd this (h3 c List.mem_cons_self)
          · exact heq
          · have := hr d.1
            rw [below d.1 (c :: cs) (by
              intro e he
              rcases List.mem_cons.1 he with rfl | he
              · exact hlt
              · exact hlt.trans (hc e he)), lookupCell, if_pos rfl] at this
            exact absurd this.symm (h4 d List.mem_cons_self)
        have hv : c.2 = d.2 := by
          have := hr c.1
          simpa [lookupCell, hcd] using this
        have hcd' : c = d := Prod.ext hcd hv
        subst hcd'
        congr 1
        refine ih ds hcs hds (fun e he => h3 e (List.mem_cons_of_mem _ he))
          (fun e he => h4 e (List.mem_cons_of_mem _ he)) fun a => ?_
        by_cases ha : c.1 = a
        · subst ha
          rw [below _ cs hc, below _ ds hd]
        · simpa [lookupCell, ha] using hr a
  exact congrArg Memory.mk (key cs cs' h.1 h'.1 h.2 h'.2 hr)

end Sys2Proof.Machine
end

