-- ==== Sys2Proof/Laws/State.lean ====
section
/-! SUPPORT. What each field of the state is after each update: the lemmas that let proofs about a command leave the record
updates folded. -/

namespace Sys2Proof.Machine

variable (s : State)

/-! ### `setDout` -/

@[simp] theorem State.setDout_params (v : Word) : (s.setDout v).params = s.params := rfl
@[simp] theorem State.setDout_others (v : Word) : (s.setDout v).others = s.others := rfl
@[simp] theorem State.setDout_mem (v : Word) : (s.setDout v).mem = s.mem := rfl
@[simp] theorem State.setDout_program (v : Word) : (s.setDout v).program = s.program := rfl
@[simp] theorem State.setDout_reply (v : Word) : (s.setDout v).reply = s.reply := rfl
@[simp] theorem State.setDout_draws (v : Word) : (s.setDout v).draws = s.draws := rfl
@[simp] theorem State.setDout_blk_regBase (v : Word) : (s.setDout v).blk.regBase = s.blk.regBase := rfl
@[simp] theorem State.setDout_blk_status (v : Word) : (s.setDout v).blk.status = s.blk.status := rfl
@[simp] theorem State.setDout_blk_pending (v : Word) : (s.setDout v).blk.pending = s.blk.pending := rfl
@[simp] theorem State.setDout_blk_src (v : Word) : (s.setDout v).blk.src = s.blk.src := rfl
@[simp] theorem State.setDout_blk_slen (v : Word) : (s.setDout v).blk.slen = s.blk.slen := rfl
@[simp] theorem State.setDout_blk_dst (v : Word) : (s.setDout v).blk.dst = s.blk.dst := rfl
@[simp] theorem State.setDout_blk_dcap (v : Word) : (s.setDout v).blk.dcap = s.blk.dcap := rfl
@[simp] theorem State.setDout_blk_din (v : Word) : (s.setDout v).blk.din = s.blk.din := rfl
@[simp] theorem State.setDout_blk_dout (v : Word) : (s.setDout v).blk.dout = v := rfl
@[simp] theorem State.setDout_blk_rlen (v : Word) : (s.setDout v).blk.rlen = s.blk.rlen := rfl
@[simp] theorem State.setDout_blk_written (v : Word) : (s.setDout v).blk.written = { s.blk.written with dout := true } := rfl
@[simp] theorem State.setDout_blk_alphabetLut (v : Word) : (s.setDout v).blk.alphabetLut = s.blk.alphabetLut := rfl
@[simp] theorem State.setDout_blk_inverseLut (v : Word) : (s.setDout v).blk.inverseLut = s.blk.inverseLut := rfl

/-! ### `setRlen` -/

@[simp] theorem State.setRlen_params (m : Nat) : (s.setRlen m).params = s.params := rfl
@[simp] theorem State.setRlen_others (m : Nat) : (s.setRlen m).others = s.others := rfl
@[simp] theorem State.setRlen_mem (m : Nat) : (s.setRlen m).mem = s.mem := rfl
@[simp] theorem State.setRlen_program (m : Nat) : (s.setRlen m).program = s.program := rfl
@[simp] theorem State.setRlen_reply (m : Nat) : (s.setRlen m).reply = s.reply := rfl
@[simp] theorem State.setRlen_draws (m : Nat) : (s.setRlen m).draws = s.draws := rfl
@[simp] theorem State.setRlen_blk_regBase (m : Nat) : (s.setRlen m).blk.regBase = s.blk.regBase := rfl
@[simp] theorem State.setRlen_blk_status (m : Nat) : (s.setRlen m).blk.status = s.blk.status := rfl
@[simp] theorem State.setRlen_blk_pending (m : Nat) : (s.setRlen m).blk.pending = s.blk.pending := rfl
@[simp] theorem State.setRlen_blk_src (m : Nat) : (s.setRlen m).blk.src = s.blk.src := rfl
@[simp] theorem State.setRlen_blk_slen (m : Nat) : (s.setRlen m).blk.slen = s.blk.slen := rfl
@[simp] theorem State.setRlen_blk_dst (m : Nat) : (s.setRlen m).blk.dst = s.blk.dst := rfl
@[simp] theorem State.setRlen_blk_dcap (m : Nat) : (s.setRlen m).blk.dcap = s.blk.dcap := rfl
@[simp] theorem State.setRlen_blk_din (m : Nat) : (s.setRlen m).blk.din = s.blk.din := rfl
@[simp] theorem State.setRlen_blk_dout (m : Nat) : (s.setRlen m).blk.dout = s.blk.dout := rfl
@[simp] theorem State.setRlen_blk_rlen (m : Nat) : (s.setRlen m).blk.rlen = keepLow s.params.lenW (BitVec.ofNat 32 m) := rfl
@[simp] theorem State.setRlen_blk_written (m : Nat) : (s.setRlen m).blk.written = { s.blk.written with rlen := true } := rfl
@[simp] theorem State.setRlen_blk_alphabetLut (m : Nat) : (s.setRlen m).blk.alphabetLut = s.blk.alphabetLut := rfl
@[simp] theorem State.setRlen_blk_inverseLut (m : Nat) : (s.setRlen m).blk.inverseLut = s.blk.inverseLut := rfl

/-! ### `storeResult` -/

@[simp] theorem State.storeResult_params (l : List Byte) : (s.storeResult l).params = s.params := rfl
@[simp] theorem State.storeResult_others (l : List Byte) : (s.storeResult l).others = s.others := rfl
@[simp] theorem State.storeResult_mem (l : List Byte) : (s.storeResult l).mem = s.mem.writeBytes s.blk.dst.toNat l := rfl
@[simp] theorem State.storeResult_program (l : List Byte) : (s.storeResult l).program = s.program := rfl
@[simp] theorem State.storeResult_reply (l : List Byte) : (s.storeResult l).reply = s.reply := rfl
@[simp] theorem State.storeResult_draws (l : List Byte) : (s.storeResult l).draws = s.draws := rfl
@[simp] theorem State.storeResult_blk_regBase (l : List Byte) : (s.storeResult l).blk.regBase = s.blk.regBase := rfl
@[simp] theorem State.storeResult_blk_status (l : List Byte) : (s.storeResult l).blk.status = s.blk.status := rfl
@[simp] theorem State.storeResult_blk_pending (l : List Byte) : (s.storeResult l).blk.pending = s.blk.pending := rfl
@[simp] theorem State.storeResult_blk_src (l : List Byte) : (s.storeResult l).blk.src = s.blk.src := rfl
@[simp] theorem State.storeResult_blk_slen (l : List Byte) : (s.storeResult l).blk.slen = s.blk.slen := rfl
@[simp] theorem State.storeResult_blk_dst (l : List Byte) : (s.storeResult l).blk.dst = s.blk.dst := rfl
@[simp] theorem State.storeResult_blk_dcap (l : List Byte) : (s.storeResult l).blk.dcap = s.blk.dcap := rfl
@[simp] theorem State.storeResult_blk_din (l : List Byte) : (s.storeResult l).blk.din = s.blk.din := rfl
@[simp] theorem State.storeResult_blk_dout (l : List Byte) : (s.storeResult l).blk.dout = s.blk.dout := rfl
@[simp] theorem State.storeResult_blk_rlen (l : List Byte) : (s.storeResult l).blk.rlen = s.blk.rlen := rfl
@[simp] theorem State.storeResult_blk_written (l : List Byte) : (s.storeResult l).blk.written = s.blk.written := rfl
@[simp] theorem State.storeResult_blk_alphabetLut (l : List Byte) : (s.storeResult l).blk.alphabetLut = s.blk.alphabetLut := rfl
@[simp] theorem State.storeResult_blk_inverseLut (l : List Byte) : (s.storeResult l).blk.inverseLut = s.blk.inverseLut := rfl

/-! ### `endCommand` -/

@[simp] theorem State.endCommand_params (e : BitVec 4) : (s.endCommand e).params = s.params := rfl
@[simp] theorem State.endCommand_others (e : BitVec 4) : (s.endCommand e).others = s.others := rfl
@[simp] theorem State.endCommand_mem (e : BitVec 4) : (s.endCommand e).mem = s.mem := rfl
@[simp] theorem State.endCommand_program (e : BitVec 4) : (s.endCommand e).program = s.program := rfl
@[simp] theorem State.endCommand_reply (e : BitVec 4) : (s.endCommand e).reply = s.reply := rfl
@[simp] theorem State.endCommand_draws (e : BitVec 4) : (s.endCommand e).draws = s.draws := rfl
@[simp] theorem State.endCommand_blk_regBase (e : BitVec 4) : (s.endCommand e).blk.regBase = s.blk.regBase := rfl
@[simp] theorem State.endCommand_blk_status (e : BitVec 4) : (s.endCommand e).blk.status = Status.ended e := rfl
@[simp] theorem State.endCommand_blk_pending (e : BitVec 4) : (s.endCommand e).blk.pending = none := rfl
@[simp] theorem State.endCommand_blk_src (e : BitVec 4) : (s.endCommand e).blk.src = s.blk.src := rfl
@[simp] theorem State.endCommand_blk_slen (e : BitVec 4) : (s.endCommand e).blk.slen = s.blk.slen := rfl
@[simp] theorem State.endCommand_blk_dst (e : BitVec 4) : (s.endCommand e).blk.dst = s.blk.dst := rfl
@[simp] theorem State.endCommand_blk_dcap (e : BitVec 4) : (s.endCommand e).blk.dcap = s.blk.dcap := rfl
@[simp] theorem State.endCommand_blk_din (e : BitVec 4) : (s.endCommand e).blk.din = s.blk.din := rfl
@[simp] theorem State.endCommand_blk_dout (e : BitVec 4) : (s.endCommand e).blk.dout = s.blk.dout := rfl
@[simp] theorem State.endCommand_blk_rlen (e : BitVec 4) : (s.endCommand e).blk.rlen = s.blk.rlen := rfl
@[simp] theorem State.endCommand_blk_written (e : BitVec 4) : (s.endCommand e).blk.written = s.blk.written := rfl
@[simp] theorem State.endCommand_blk_alphabetLut (e : BitVec 4) : (s.endCommand e).blk.alphabetLut = s.blk.alphabetLut := rfl
@[simp] theorem State.endCommand_blk_inverseLut (e : BitVec 4) : (s.endCommand e).blk.inverseLut = s.blk.inverseLut := rfl

/-! ### The two ends of a command are one update -/

@[simp] theorem State.complete_eq : s.complete = s.endCommand 0 := rfl
@[simp] theorem State.raiseError_eq (e : ErrorKind) : s.raiseError e = s.endCommand e.code := rfl
@[simp] theorem Status.ended_busy (e : BitVec 4) : (Status.ended e).busy = false := rfl
@[simp] theorem Status.ended_err (e : BitVec 4) : (Status.ended e).err = e := rfl

/-! ### `accept` -/

variable (b : Block) (w : Word)

@[simp] theorem Block.accept_regBase : (b.accept w).regBase = b.regBase := rfl
@[simp] theorem Block.accept_status : (b.accept w).status = Status.accepted := rfl
@[simp] theorem Block.accept_pending : (b.accept w).pending = some w := rfl
@[simp] theorem Block.accept_src : (b.accept w).src = b.src := rfl
@[simp] theorem Block.accept_slen : (b.accept w).slen = b.slen := rfl
@[simp] theorem Block.accept_dst : (b.accept w).dst = b.dst := rfl
@[simp] theorem Block.accept_dcap : (b.accept w).dcap = b.dcap := rfl
@[simp] theorem Block.accept_din : (b.accept w).din = b.din := rfl
@[simp] theorem Block.accept_dout : (b.accept w).dout = b.dout := rfl
@[simp] theorem Block.accept_rlen : (b.accept w).rlen = b.rlen := rfl
@[simp] theorem Block.accept_written : (b.accept w).written = b.written := rfl
@[simp] theorem Block.accept_alphabetLut : (b.accept w).alphabetLut = b.alphabetLut := rfl
@[simp] theorem Block.accept_inverseLut : (b.accept w).inverseLut = b.inverseLut := rfl

end Sys2Proof.Machine
end

