-- ==== Sys2Proof/Laws/Exec.lean ====
section
/-! SUPPORT. What a command can do, said once: the inversion lemma of `exec` and the lemmas of the operations it is made
of. -/

namespace Sys2Proof.Machine

/-! ### Operations -/

theorem keepLow_toNat {w : Nat} (hw : w ≤ 32) (v : Word) : (keepLow w v).toNat = v.toNat % 2 ^ w := by
  have h1 : v.toNat % 2 ^ w < 2 ^ w := Nat.mod_lt _ (Nat.two_pow_pos w)
  have h2 : 2 ^ w ≤ 2 ^ 32 := Nat.pow_le_pow_right (by omega) hw
  simp only [keepLow, BitVec.toNat_ofNat]
  exact Nat.mod_eq_of_lt (by omega)

theorem keepLow_lt {w : Nat} (hw : w ≤ 32) (v : Word) : (keepLow w v).toNat < 2 ^ w := by
  rw [keepLow_toNat hw]; exact Nat.mod_lt _ (Nat.two_pow_pos w)

/-- A result length that fits `LEN_W` bits is stored whole (R24). -/
theorem keepLow_ofNat {w m : Nat} (hw : w ≤ 32) (hm : m < 2 ^ w) : (keepLow w (BitVec.ofNat 32 m)).toNat = m := by
  have h2 : 2 ^ w ≤ 2 ^ 32 := Nat.pow_le_pow_right (by omega) hw
  rw [keepLow_toNat hw, BitVec.toNat_ofNat, Nat.mod_eq_of_lt (show m < 2 ^ 32 by omega), Nat.mod_eq_of_lt hm]

theorem State.srcOk_iff (s : State) : s.srcOk = true ↔ s.SrcFits := decide_eq_true_iff

theorem State.dstOk_iff (s : State) : s.dstOk = true ↔ s.DstFits := decide_eq_true_iff

theorem Region.contains_iff (r : Region) (a : Nat) : r.contains a = true ↔ r.base ≤ a ∧ a < r.base + r.len := by
  simp [Region.contains]

/-- `overlaps` says that some address lies in both regions (R43). -/
theorem Region.overlaps_iff (r q : Region) : r.overlaps q = true ↔ ∃ a, r.contains a = true ∧ q.contains a = true := by
  simp only [Region.overlaps, Region.contains_iff, Bool.and_eq_true, decide_eq_true_eq]
  constructor
  · rintro ⟨⟨⟨h1, h2⟩, h3⟩, h4⟩
    exact ⟨max r.base q.base, by omega, by omega⟩
  · rintro ⟨a, h1, h2⟩
    omega

theorem Block.overlaps_eq_false (b : Block) : b.srcRegion.overlaps b.dstRegion = false ↔ b.RegionsDisjoint := by
  rw [← Bool.not_eq_true, Region.overlaps_iff, not_exists]
  refine forall_congr' fun a => ?_
  rw [Region.contains_iff, Region.contains_iff, and_assoc]
  exact Iff.rfl

@[simp] theorem State.sourceBytes_length (s : State) : s.sourceBytes.length = s.blk.slen.toNat := by
  simp [State.sourceBytes]

/-- A text of whole groups of three has four symbols for each; the rest one group more (R71). -/
theorem encodeBytes_length (t : AlphabetTable) (b : List Byte) : (encodeBytes t b).length = encodedLength b.length := by
  induction b using encodeBytes.induct with
  | case1 => rfl
  | case2 => simp [encodeBytes, Symbols.toList, encodedLength]
  | case3 => simp [encodeBytes, Symbols.toList, encodedLength]
  | case4 b0 b1 b2 rest ih =>
    simp only [encodeBytes, Symbols.toList, List.length_append, ih, List.length_cons, List.length_nil, encodedLength]
    omega

/-- When the checks of `ENCODE` pass, what they leave (R74). -/
theorem State.encodeOutput_ok {s : State} {out : List Byte} (h : s.encodeOutput = .ok out) :
    s.SrcFits ∧ s.DstFits ∧ encodedLength s.blk.slen.toNat ≤ s.blk.dcap.toNat ∧
      out = encodeBytes s.blk.alphabetLut s.sourceBytes ∧ out.length = encodedLength s.blk.slen.toNat := by
  unfold State.encodeOutput at h
  split at h
  · cases h
  · next h1 =>
    split at h
    · cases h
    · next h2 =>
      cases h
      simp only [Bool.or_eq_true, Bool.not_eq_true', not_or, Bool.not_eq_false] at h1
      exact ⟨s.srcOk_iff.1 h1.1, s.dstOk_iff.1 h1.2, by omega, rfl, by simp [encodeBytes_length]⟩

/-- When the checks of `DECODE` pass, what they leave (R88). -/
theorem State.decodeOutput_ok {s : State} {out : List Byte} (h : s.decodeOutput = .ok out) :
    s.SrcFits ∧ s.DstFits ∧ decodeBytes s.blk.inverseLut s.sourceBytes = .ok out ∧ out.length ≤ s.blk.dcap.toNat := by
  unfold State.decodeOutput at h
  split at h
  · cases h
  · next h1 =>
    simp only [Bool.or_eq_true, Bool.not_eq_true', not_or, Bool.not_eq_false] at h1
    split at h
    · cases h
    · next r hr =>
      split at h
      · cases h
      · cases h
        exact ⟨s.srcOk_iff.1 h1.1, s.dstOk_iff.1 h1.2, hr, by omega⟩

/-! ### The inversion lemma -/

/-- The end of a command, by its results (R51): an error; `DOUT`; `DOUT` and `RLEN`; `RLEN`; or destination bytes and
`RLEN`. -/
inductive State.Ends (s : State) : State → Prop where
  | failed (e : ErrorKind) : s.Ends (s.raiseError e)
  | wroteDout (v : Word) : s.Ends (s.setDout v).complete
  | wroteBoth (v : Word) (m : Nat) (hm : m ≤ 4) : s.Ends ((s.setDout v).setRlen m).complete
  | wroteRlen (m : Nat) : s.Ends (s.setRlen m).complete
  | stored (out : List Byte) (hdst : s.DstFits) (hcap : out.length ≤ s.blk.dcap.toNat) (hdis : s.blk.RegionsDisjoint) :
      s.Ends ((s.storeResult out).setRlen out.length).complete

/-- The commands that write the destination region (R32). -/
def storesResult : Instr → Bool
  | .encode | .decode => true
  | .alut | .ilut | .encblk1 | .encblk2 | .encblk3 | .decblk0 | .decblk1 | .enclen | .declen => false
  | .illegal _ => false

theorem groupBytes_length (t : InverseTable) (a b c d : Byte) : (groupBytes t a b c d).length ≤ 3 := by
  unfold groupBytes
  simp only
  split
  · simp
  · split <;> simp

theorem decGroup_length {t : InverseTable} {a b c d : Byte} {f : Bool} {r : List Byte}
    (h : decGroup t a b c d f = .ok r) : r.length ≤ 3 := by
  unfold decGroup at h
  split at h
  · cases h
  · split at h
    · cases h
    · cases h; exact groupBytes_length t a b c d

theorem State.decodeGroup_ends (s : State) (f : Bool) : s.Ends (s.decodeGroup f) := by
  unfold State.decodeGroup
  split
  · exact .failed _
  · next h => exact .wroteBoth _ _ (Nat.le_succ_of_le (decGroup_length h))

/-- Everything a command can do when it gives a next state. -/
theorem exec_ends {i : Instr} {s t : State} (h : exec i s = .next t) : s.Ends t := by
  cases i <;> simp only [exec] at h
  case alut => cases h; exact .wroteDout _
  case ilut => cases h; exact .wroteDout _
  case encblk1 => cases h; exact .wroteBoth _ 4 (Nat.le_refl 4)
  case encblk2 => cases h; exact .wroteBoth _ 4 (Nat.le_refl 4)
  case encblk3 => cases h; exact .wroteBoth _ 4 (Nat.le_refl 4)
  case decblk0 => cases h; exact s.decodeGroup_ends false
  case decblk1 => cases h; exact s.decodeGroup_ends true
  case illegal w => cases h; exact .failed _
  case encode =>
    unfold execEncode at h
    split at h
    · cases h; exact .failed _
    · next out ho =>
      obtain ⟨-, hd, hc, -, hl⟩ := State.encodeOutput_ok ho
      split at h
      · cases h
      · next hov =>
        cases h
        rw [← hl] at hc ⊢
        exact .stored out hd hc (s.blk.overlaps_eq_false.1 (by simpa using hov))
  case decode =>
    unfold execDecode at h
    split at h
    · cases h; exact .failed _
    · next out ho =>
      obtain ⟨-, hd, -, hc⟩ := State.decodeOutput_ok ho
      split at h
      · cases h
      · next hov =>
        cases h
        exact .stored out hd hc (s.blk.overlaps_eq_false.1 (by simpa using hov))
  case enclen =>
    unfold execEnclen at h
    split at h
    · cases h; exact .failed _
    · cases h; exact .wroteRlen _
  case declen =>
    unfold execDeclen at h
    split at h
    · cases h; exact .failed _
    · split at h
      · cases h; exact .failed _
      · split at h
        · cases h; exact .wroteRlen _
        · cases h; exact .wroteRlen _

/-- A command never gives a refusal: every row of the table has its meaning. -/
theorem exec_not_refused (i : Instr) (s : State) (r : Refusal) : exec i s ≠ .refused r := by
  cases i <;> simp only [exec] <;> intro h
  case encode =>
    unfold execEncode at h
    split at h
    · cases h
    · split at h <;> cases h
  case decode =>
    unfold execDecode at h
    split at h
    · cases h
    · split at h <;> cases h
  case enclen => unfold execEnclen at h; split at h <;> cases h
  case declen => unfold execDeclen at h; repeat (split at h; · cases h)
                 cases h
  all_goals cases h

/-- What no command changes, read off the inversion lemma. -/
theorem State.Ends.around {s t : State} (h : s.Ends t) : s.SameAround t := by
  cases h <;> exact ⟨rfl, ⟨rfl, rfl, rfl, rfl, rfl, rfl, rfl, rfl, rfl, rfl, rfl, rfl, rfl⟩, rfl, rfl, rfl, rfl⟩

end Sys2Proof.Machine
end

