-- ==== Sys2Proof/Laws/Copies.lean ====
section
/-! SUPPORT. The copies of the block: what bringing a copy into focus does, and everything an engine's turn can do. -/

namespace Sys2Proof.Machine

@[simp] theorem State.copy_zero (s : State) : s.copy 0 = some s.blk := rfl
@[simp] theorem State.copy_succ (s : State) (k : Nat) : s.copy (k + 1) = s.others[k]? := rfl
@[simp] theorem State.focus_zero (s : State) : s.focus 0 = s := rfl

@[simp] theorem State.focus_params (s : State) (n : Nat) : (s.focus n).params = s.params := by
  cases n with
  | zero => rfl
  | succ k => simp only [State.focus]; split <;> rfl

@[simp] theorem State.focus_mem (s : State) (n : Nat) : (s.focus n).mem = s.mem := by
  cases n with
  | zero => rfl
  | succ k => simp only [State.focus]; split <;> rfl

@[simp] theorem State.focus_program (s : State) (n : Nat) : (s.focus n).program = s.program := by
  cases n with
  | zero => rfl
  | succ k => simp only [State.focus]; split <;> rfl

@[simp] theorem State.focus_reply (s : State) (n : Nat) : (s.focus n).reply = s.reply := by
  cases n with
  | zero => rfl
  | succ k => simp only [State.focus]; split <;> rfl

@[simp] theorem State.focus_draws (s : State) (n : Nat) : (s.focus n).draws = s.draws := by
  cases n with
  | zero => rfl
  | succ k => simp only [State.focus]; split <;> rfl

/-- The copy in focus is the one asked for. -/
theorem State.focus_blk {s : State} {n : Nat} {b : Block} (h : s.copy n = some b) : (s.focus n).blk = b := by
  cases n with
  | zero => exact Option.some.inj h
  | succ k =>
    simp only [State.copy_succ] at h
    simp only [State.focus, h]

/-- After work on the copy in focus, putting it back replaces that copy and no other. -/
theorem State.copy_focus_back {s u : State} {n : Nat} {b : Block} (h : s.copy n = some b)
    (hu : u.others = (s.focus n).others) (m : Nat) :
    (u.focus n).copy m = if m = n then some u.blk else s.copy m := by
  cases n with
  | zero =>
    simp only [State.focus_zero] at hu ⊢
    cases m with
    | zero => simp
    | succ j => simp [hu]
  | succ k =>
    simp only [State.copy_succ] at h
    obtain ⟨hk, hb⟩ := List.getElem?_eq_some_iff.1 h
    have hu' : u.others = s.others.set k s.blk := by simpa only [State.focus, h] using hu
    have hget : u.others[k]? = some s.blk := by simp [hu', hk]
    have hf : u.focus (k + 1) = { u with blk := s.blk, others := u.others.set k u.blk } := by
      simp only [State.focus, hget]
    rw [hf]
    cases m with
    | zero => simp
    | succ j =>
      by_cases hj : j = k
      · subst hj; simp [hu', hk]
      · simp [hu', Ne.symm hj, hj]

/-- Bringing a copy into focus twice changes nothing. -/
theorem State.focus_focus (s : State) (n : Nat) : (s.focus n).focus n = s := by
  cases n with
  | zero => rfl
  | succ k =>
    cases h : s.others[k]? with
    | none => simp only [State.focus, h]
    | some b =>
      obtain ⟨hk, hb⟩ := List.getElem?_eq_some_iff.1 h
      have h1 : s.focus (k + 1) = { s with blk := b, others := s.others.set k s.blk } := by simp only [State.focus, h]
      have h2 : (s.others.set k s.blk)[k]? = some s.blk := by simp [hk]
      rw [h1]
      simp only [State.focus, h2, List.set_set]
      rw [← hb, List.set_getElem_self]

/-- Every copy but the one in focus stands among the others. -/
theorem State.mem_focus_others {s : State} {n m : Nat} {b c : Block} (hn : s.copy n = some b) (hm : s.copy m = some c)
    (hne : n ≠ m) : c ∈ (s.focus n).others := by
  cases n with
  | zero =>
    cases m with
    | zero => exact absurd rfl hne
    | succ j => exact List.mem_of_getElem? hm
  | succ k =>
    simp only [State.copy_succ] at hn
    obtain ⟨hk, -⟩ := List.getElem?_eq_some_iff.1 hn
    simp only [State.focus, hn]
    cases m with
    | zero => cases hm; exact List.mem_of_getElem? (List.getElem?_set_self hk)
    | succ j =>
      refine List.mem_of_getElem? (i := j) ?_
      rw [List.getElem?_set_ne (by omega)]
      exact hm

/-- Whether a copy's command writes depends on the parameters and the memory alone, not on the copy in focus. -/
@[simp] theorem State.runningWriter_focus (s : State) (n : Nat) (b : Block) :
    (s.focus n).runningWriter b = s.runningWriter b := by
  cases n with
  | zero => rfl
  | succ k => simp only [State.focus]; split <;> rfl

/-- The program, too, decides nothing about who writes. -/
@[simp] theorem State.runningWriter_program (s : State) (p : List HostAction) (b : Block) :
    ({ s with program := p } : State).runningWriter b = s.runningWriter b := rfl

theorem onNext_next {f : State → State} {o : Host.Outcome State Fault Refusal} {t : State}
    (h : onNext f o = .next t) : ∃ u, o = .next u ∧ t = f u := by
  cases o with
  | next u => simp only [onNext] at h; cases h; exact ⟨u, rfl, rfl⟩
  | fault r => cases h
  | refused r => cases h

/-- What the engine of the copy in focus can do: nothing, or its pending command. -/
theorem State.engineOfBlk_next {s u : State} (h : s.engineOfBlk = .next u) :
    (u = s ∧ (s.blk.status.busy = false ∨ s.blk.pending = none)) ∨
    ∃ w, s.blk.status.busy = true ∧ s.blk.pending = some w ∧ exec (decodeWord w) s = .next u := by
  unfold State.engineOfBlk at h
  split at h
  · next w hb hp =>
    split at h
    · cases h
    · exact .inr ⟨w, hb, hp, h⟩
  · next hno =>
    cases h
    refine .inl ⟨rfl, ?_⟩
    cases hb : s.blk.status.busy with
    | false => exact .inl rfl
    | true =>
      cases hp : s.blk.pending with
      | none => exact .inr rfl
      | some w => exact absurd hp (hno w hb)

/-- Everything a turn of the engine of copy `n` can do when it gives a next state: `u` is the state with copy `n` in focus
after the engine's move. -/
theorem State.engineStep_next {s t : State} {n : Nat} (h : s.engineStep n = .next t) :
    ∃ b u, s.copy n = some b ∧ (s.focus n).blk = b ∧ t = u.focus n ∧
      ((u = s.focus n ∧ (b.status.busy = false ∨ b.pending = none)) ∨
       ∃ w, b.status.busy = true ∧ b.pending = some w ∧ exec (decodeWord w) (s.focus n) = .next u) := by
  unfold State.engineStep at h
  split at h
  · cases h
  · next b hb =>
    obtain ⟨u, hu, rfl⟩ := onNext_next h
    have hf := State.focus_blk hb
    refine ⟨b, u, hb, hf, rfl, ?_⟩
    have := State.engineOfBlk_next hu
    rwa [hf] at this

/-- Copy 0 and the others, as one list. -/
theorem State.mem_copies {s : State} {b : Block} : b ∈ s.blk :: s.others ↔ ∃ n, s.copy n = some b := by
  rw [List.mem_cons, List.mem_iff_getElem?]
  constructor
  · rintro (rfl | ⟨k, hk⟩)
    · exact ⟨0, rfl⟩
    · exact ⟨k + 1, hk⟩
  · rintro ⟨_ | k, h⟩
    · exact .inl (Option.some.inj h).symm
    · exact .inr ⟨k, h⟩

end Sys2Proof.Machine
end

