-- ==== Sys2Proof/Laws/HostPort.lean ====
section
/-! SUPPORT. The host's actions: replacing a copy, which copy a bus address selects, the two register accesses, and everything
an action can do. -/

namespace Sys2Proof.Machine

/-! ### Replacing a copy -/

theorem State.copies_getElem? (s : State) (n : Nat) : (s.blk :: s.others)[n]? = s.copy n := by cases n <;> rfl

@[simp] theorem State.setCopy_params (s : State) (n : Nat) (b : Block) : (s.setCopy n b).params = s.params := by
  cases n <;> rfl
@[simp] theorem State.setCopy_mem (s : State) (n : Nat) (b : Block) : (s.setCopy n b).mem = s.mem := by cases n <;> rfl
@[simp] theorem State.setCopy_program (s : State) (n : Nat) (b : Block) : (s.setCopy n b).program = s.program := by
  cases n <;> rfl
@[simp] theorem State.setCopy_reply (s : State) (n : Nat) (b : Block) : (s.setCopy n b).reply = s.reply := by
  cases n <;> rfl
@[simp] theorem State.setCopy_draws (s : State) (n : Nat) (b : Block) : (s.setCopy n b).draws = s.draws := by
  cases n <;> rfl

/-- Replacing copy `n` changes that copy and no other. -/
theorem State.setCopy_copy {s : State} {n : Nat} {b : Block} (h : s.copy n = some b) (c : Block) (m : Nat) :
    (s.setCopy n c).copy m = if m = n then some c else s.copy m := by
  cases n with
  | zero => cases m <;> simp [State.setCopy]
  | succ k =>
    simp only [State.copy_succ] at h
    obtain ⟨hk, -⟩ := List.getElem?_eq_some_iff.1 h
    cases m with
    | zero => simp [State.setCopy]
    | succ j =>
      by_cases hj : j = k
      · subst hj; simp [State.setCopy, hk]
      · simp [State.setCopy, hj, Ne.symm hj]

/-- Replacing a copy by itself changes nothing. -/
theorem State.setCopy_same {s : State} {n : Nat} {b : Block} (h : s.copy n = some b) : s.setCopy n b = s := by
  cases n with
  | zero => cases h; rfl
  | succ k =>
    obtain ⟨hk, rfl⟩ := List.getElem?_eq_some_iff.1 (State.copy_succ s k ▸ h)
    simp only [State.setCopy, List.set_getElem_self]

/-! ### Register accesses -/

/-- The copy that a bus address selects is there, and the address lies in its window (R16). -/
theorem State.copyAt_some {s : State} {addr n : Nat} {b : Block} (h : s.copyAt addr = some (n, b)) :
    s.copy n = some b ∧ b.regBase ≤ addr ∧ addr < b.regBase + windowBytes := by
  unfold State.copyAt at h
  rw [Option.map_eq_some_iff] at h
  obtain ⟨⟨c, m⟩, h1, h2⟩ := h
  cases h2
  have hm := List.mem_of_find?_eq_some h1
  have hp := List.find?_some h1
  rw [Bool.and_eq_true] at hp
  rw [List.mem_zipIdx_iff_getElem?] at hm
  refine ⟨?_, of_decide_eq_true hp.1, of_decide_eq_true hp.2⟩
  rw [← State.copies_getElem?]
  simpa using hm

/-- The first address of copy 0's window selects copy 0. -/
theorem State.copyAt_base (s : State) : s.copyAt s.blk.regBase = some (0, s.blk) := by
  simp [State.copyAt, windowBytes, List.zipIdx_cons]

theorem properAccess_32 {b : Block} {addr : Nat} (h : (addr - b.regBase) % 4 = 0) : properAccess b addr 32 = true := by
  simp [properAccess, h]

/-- There is no register above `RLEN` (R16). -/
theorem Reg.atOffset_none {off : Nat} (h : 0x24 ≤ off) : Reg.atOffset off = none := by
  simp [Reg.atOffset, Reg.offset]
  omega

/-- A proper write is the write at its offset in the copy selected (R17). -/
theorem State.busWrite_eq {s : State} {addr n : Nat} {b : Block} (h : s.copyAt addr = some (n, b))
    (h4 : (addr - b.regBase) % 4 = 0) (v : Word) :
    s.busWrite addr 32 v = .next (s.setCopy n (b.writeOffset s.params (addr - b.regBase) v)) := by
  simp only [State.busWrite, h, properAccess_32 h4, if_true]

/-- A proper read is the read at its offset in the copy selected (R17). -/
theorem State.busRead_eq {s : State} {addr n : Nat} {b : Block} (h : s.copyAt addr = some (n, b))
    (h4 : (addr - b.regBase) % 4 = 0) :
    s.busRead addr 32 = .next { s with
      reply := .word (b.readOffset s.params (addr - b.regBase) (Config.freeWord s.draws))
      draws := if b.readsDraw (addr - b.regBase) then s.draws + 1 else s.draws } := by
  simp only [State.busRead, h, properAccess_32 h4, if_true]

/-- While `BUSY` = 1 no write changes the copy (R17, R18). -/
theorem Block.writeOffset_busy {b : Block} (h : b.status.busy = true) (p : Params) (off : Nat) (v : Word) :
    b.writeOffset p off v = b := by
  rw [Block.writeOffset, if_pos h]

/-- A register write leaves the window where it is. -/
@[simp] theorem Block.writeOffset_regBase (p : Params) (b : Block) (off : Nat) (v : Word) :
    (b.writeOffset p off v).regBase = b.regBase := by
  unfold Block.writeOffset
  split
  · rfl
  · split
    · rfl
    · next r _ => cases r <;> rfl

/-! ### Everything an action can do -/

/-- The moves of one action of the program: a reply; a byte of memory; a register of one copy; a copy's reset; or a turn of an
engine, the host waiting on or not.  Each says which action makes it. -/
inductive State.Moves (s : State) (a : HostAction) : State → Prop where
  | replied (r : Reply) (d : Nat) : s.Moves a { s with reply := r, draws := d }
  | wroteByte (x : Nat) (v : Byte) (ha : a = .memWrite x v) (hx : x < 2 ^ s.params.addrW) :
      s.Moves a { s with mem := s.mem.write x v }
  | wroteReg (addr width n : Nat) (b : Block) (v : Word) (ha : a = .busWrite addr width v)
      (hat : s.copyAt addr = some (n, b)) (hp : properAccess b addr width = true) :
      s.Moves a (s.setCopy n (b.writeOffset s.params (addr - b.regBase) v))
  | wasReset (n : Nat) (b : Block) (ha : a = .reset n) (hb : s.copy n = some b) (hidle : b.status.busy = false) :
      s.Moves a (s.setCopy n (Block.afterReset s.params b.regBase))
  | engine (n : Nat) {t : State} (ha : a = .engine n) (h : s.engineStep n = .next t) : s.Moves a t
  | waited (n : Nat) (b : Block) {t : State} (ha : a = .wait n) (hb : s.copy n = some b) (hbusy : b.status.busy = true)
      (h : ({ s with program := .wait n :: s.program } : State).engineStep n = .next t) : s.Moves a t

/-- Everything an action can do when it gives a next state. -/
theorem State.perform_moves {s t : State} {a : HostAction} (h : s.perform a = .next t) : s.Moves a t := by
  cases a with
  | engine n => exact .engine n rfl h
  | wait n =>
    simp only [State.perform, State.hostWait] at h
    split at h
    · cases h
    · next b hb =>
      split at h
      · next hbusy => exact .waited n b rfl hb hbusy h
      · cases h; exact .replied _ _
  | reset n =>
    simp only [State.perform, State.hostReset] at h
    split at h
    · cases h
    · next b hb =>
      split at h
      · cases h
      · next hi => cases h; exact .wasReset n b rfl hb (by simpa using hi)
  | memWrite a v =>
    simp only [State.perform, State.hostMemWrite] at h
    split at h
    · cases h
    · next ha =>
      split at h
      · cases h
      · cases h; exact .wroteByte a v rfl (by omega)
  | memRead a =>
    simp only [State.perform, State.hostMemRead] at h
    split at h
    · cases h
    · split at h <;> (cases h; exact .replied _ _)
  | busRead addr w =>
    simp only [State.perform, State.busRead] at h
    split at h
    · cases h
    · split at h
      · cases h; exact .replied _ _
      · cases h
  | busWrite addr w v =>
    simp only [State.perform, State.busWrite] at h
    split at h
    · cases h
    · next n b hat =>
      split at h
      · next hp => cases h; exact .wroteReg addr w n b v rfl hat hp
      · cases h

end Sys2Proof.Machine
end

