-- ==== Sys2Proof/Laws/Luts.lean ====
section
/-! SUPPORT. The lookups in the two tables: one lemma per function, so that no proof unfolds a table. -/

namespace Sys2Proof

theorem tabulate_getElem {α : Type} (n : Nat) (f : Nat → α) (i : Nat) (h : i < n) : (tabulate n f)[i] = f i := by
  simp [tabulate]

/-- A lookup in the standard alphabet is its defining function (R61). -/
theorem alpha_standard (i : Sextet) : alpha standardAlphabet i = standardSymbol i.toNat :=
  tabulate_getElem 64 standardSymbol i.toNat i.isLt

/-- A lookup in the inverse table of an alphabet is its entry (R64). -/
theorem inverseAt_inverseOf (a : AlphabetTable) (c : Code) : inverseAt (inverseOf a) c = inverseEntry a c.toNat :=
  tabulate_getElem 128 (inverseEntry a) c.toNat c.isLt

/-- The entry of a symbol's code is the symbol's index, where no two indices share a symbol (R64). -/
theorem inverseEntry_of_alpha {a : AlphabetTable} (h : ∀ i j, alpha a i = alpha a j → i = j) (i : Sextet) :
    inverseEntry a (alpha a i).toNat = i.setWidth 7 := by
  unfold inverseEntry
  have hi : (List.range 64).find? (fun j => alpha a (BitVec.ofNat 6 j) == BitVec.ofNat 8 (alpha a i).toNat)
      = some i.toNat := by
    rw [List.find?_range_eq_some]
    refine ⟨by simp, by simpa using i.isLt, fun j hj => ?_⟩
    have hlt := i.isLt
    simp only [BitVec.ofNat_toNat, BitVec.setWidth_eq, Bool.not_eq_true', beq_eq_false_iff_ne]
    intro he
    have := congrArg BitVec.toNat (h _ _ he)
    simp at this
    omega
  rw [hi]
  apply BitVec.eq_of_toNat_eq
  simp

/-- The entry of a code that is no symbol is the sentinel (R64). -/
theorem inverseEntry_of_not_alpha {a : AlphabetTable} {c : Nat} (h : ∀ i, alpha a i ≠ BitVec.ofNat 8 c) :
    inverseEntry a c = sentinel := by
  unfold inverseEntry
  have : (List.range 64).find? (fun j => alpha a (BitVec.ofNat 6 j) == BitVec.ofNat 8 c) = none := by
    simp [h]
  rw [this]

/-- The code of each symbol of the standard alphabet, by the ranges of R61. -/
theorem alpha_standard_toNat (i : Sextet) : (alpha standardAlphabet i).toNat =
    if i.toNat < 26 then 0x41 + i.toNat
    else if i.toNat < 52 then 0x61 + (i.toNat - 26)
    else if i.toNat < 62 then 0x30 + (i.toNat - 52)
    else if i.toNat = 62 then 0x2B else 0x2F := by
  rw [alpha_standard]
  unfold standardSymbol
  have := i.isLt
  split
  · simp; omega
  split
  · simp; omega
  split
  · simp; omega
  split <;> rfl

/-- The standard alphabet meets what R8 and R62 ask of every alphabet. -/
theorem alphabetLegal_standard : AlphabetLegal standardAlphabet := by
  refine ⟨fun i => ?_, fun i => ?_, fun i h => ?_, fun i j h => ?_, ?_, ?_, ?_, ?_, ?_, ?_, by decide⟩
  · rw [alpha_standard_toNat]; have := i.isLt; split_ifs <;> omega
  · rw [alpha_standard_toNat]; have := i.isLt; split_ifs <;> omega
  · have h2 := congrArg BitVec.toNat h
    rw [alpha_standard_toNat, show padSymbol.toNat = 61 from rfl] at h2
    have := i.isLt
    split_ifs at h2 <;> omega
  · have h2 := congrArg BitVec.toNat h
    rw [alpha_standard_toNat, alpha_standard_toNat] at h2
    have hi := i.isLt
    have hj := j.isLt
    apply BitVec.eq_of_toNat_eq
    split_ifs at h2 <;> omega
  all_goals rw [alpha_standard]; rfl

/-- The parameters' default values meet the constraints of R8. -/
theorem paramsLegal_default : Params.default.Legal :=
  ⟨by decide, by decide, by decide, by decide, alphabetLegal_standard⟩

/-- `INVX` of a symbol is its index (R64, R66). -/
theorem invx_symbol {a : AlphabetTable} (h : AlphabetLegal a) (i : Sextet) :
    invx (inverseOf a) (alpha a i) = i.setWidth 7 := by
  have h1 : (alpha a i).toNat < 128 := Nat.lt_of_le_of_lt (h.high i) (by decide)
  rw [invx, if_pos (by omega), inverseAt_inverseOf,
    show ((alpha a i).setWidth 7 : Code).toNat = (alpha a i).toNat by simp; omega]
  exact inverseEntry_of_alpha h.distinct i

/-- `INVX` of a byte that is no symbol is the sentinel (R64, R66). -/
theorem invx_other {a : AlphabetTable} {c : Byte} (h : ¬ IsSymbol a c) : invx (inverseOf a) c = sentinel := by
  unfold invx
  split
  · rw [inverseAt_inverseOf, inverseEntry_of_not_alpha]
    intro i hi
    refine h ⟨i, hi.trans ?_⟩
    apply BitVec.eq_of_toNat_eq
    simp
    omega
  · rfl

end Sys2Proof
end

