-- ==== Sys2Proof/Laws/Invariant.lean ====
section
/-! SUPPORT. What keeps the invariant: the end of a command, bringing a copy into focus, replacing a copy, a register write. -/

namespace Sys2Proof.Machine

/-- Every copy of a state with the invariant has its own. -/
theorem State.Inv.copy {s : State} (h : s.Inv) {n : Nat} {b : Block} (hb : s.copy n = some b) : b.Inv s.params := by
  cases n with
  | zero => cases hb; exact h.blk
  | succ k => exact h.others b (List.mem_of_getElem? hb)

/-- The invariant says nothing of the host's side. -/
theorem State.Inv.hostSide {s : State} (h : s.Inv) (p : List HostAction) (r : Reply) (d : Nat) :
    ({ s with program := p, reply := r, draws := d } : State).Inv :=
  ⟨h.legal, h.blk, h.others, h.memWf, h.memIn, h.windows⟩

/-- A copy after reset has the invariant wherever its window stands (R30). -/
theorem Block.inv_afterReset (p : Params) {base : Nat} (h : base % windowBytes = 0) : (Block.afterReset p base).Inv p := by
  have hz : ∀ w, (0 : Word).toNat < 2 ^ w := fun w => Nat.two_pow_pos w
  exact ⟨h, Nat.zero_le 5, rfl, (fun h => nomatch h), hz _, hz _, hz _, hz _, hz _, rfl, rfl⟩

theorem ErrorKind.code_le (e : ErrorKind) : e.code.toNat ≤ 5 := by cases e <;> decide

/-- The end of a command keeps the invariant of the copy that ran it. -/
theorem State.Ends.blk_inv {s t : State} (hs : s.Inv) (h : s.Ends t) : t.blk.Inv s.params := by
  have hr : ∀ m : Nat, (keepLow s.params.lenW (BitVec.ofNat 32 m)).toNat < 2 ^ s.params.lenW :=
    fun m => keepLow_lt hs.legal.lenMax _
  have h0 : (0 : BitVec 4).toNat ≤ 5 := Nat.zero_le 5
  have hn : ∀ {P : Prop}, false = true → P := fun h => nomatch h
  cases h with
  | failed e => exact { hs.blk with err := e.code_le, pending := rfl, busyErr := hn }
  | wroteDout v => exact { hs.blk with err := h0, pending := rfl, busyErr := hn }
  | wroteBoth v m hm => exact { hs.blk with err := h0, pending := rfl, busyErr := hn, rlen := hr m }
  | wroteRlen m => exact { hs.blk with err := h0, pending := rfl, busyErr := hn, rlen := hr m }
  | stored out _ _ _ => exact { hs.blk with err := h0, pending := rfl, busyErr := hn, rlen := hr out.length }

/-- A register write keeps the invariant of the copy (R17 to R21). -/
theorem Block.Inv.writeOffset {p : Params} {b : Block} (hp : p.Legal) (h : b.Inv p) (off : Nat) (v : Word) :
    (b.writeOffset p off v).Inv p := by
  unfold Block.writeOffset
  split
  · exact h
  · split
    · exact h
    · next r _ =>
      cases r with
      | cmd => exact { h with err := Nat.zero_le 5, pending := rfl, busyErr := fun _ => rfl }
      | status | dout | rlen => exact h
      | src => exact { h with src := keepLow_lt hp.addrMax v }
      | dst => exact { h with dst := keepLow_lt hp.addrMax v }
      | slen => exact { h with slen := keepLow_lt hp.lenMax v }
      | dcap => exact { h with dcap := keepLow_lt hp.lenMax v }
      | din => exact { h with }

/-- A state whose copies stand in for those of a state with the invariant, window by window, has it too. -/
theorem State.Inv.of_copies {s t : State} (hs : s.Inv) (hp : t.params = s.params) (hm : t.mem.wf)
    (hi : ∀ c ∈ t.mem.cells, c.1 < 2 ^ s.params.addrW)
    (hn : ∀ n, s.copy n = none → t.copy n = none)
    (hc : ∀ n b, s.copy n = some b → ∃ c, t.copy n = some c ∧ c.Inv s.params ∧ c.regBase = b.regBase) : t.Inv := by
  have hall : ∀ b ∈ t.blk :: t.others, b.Inv s.params := by
    intro b hb
    obtain ⟨n, htn⟩ := State.mem_copies.1 hb
    cases hsn : s.copy n with
    | none => rw [hn n hsn] at htn; cases htn
    | some b' =>
      obtain ⟨c, h1, h2, -⟩ := hc n b' hsn
      rw [htn] at h1; cases h1; exact h2
  have hw : (t.blk :: t.others).map Block.regBase = (s.blk :: s.others).map Block.regBase := by
    apply List.ext_getElem?
    intro n
    rw [List.getElem?_map, List.getElem?_map, State.copies_getElem?, State.copies_getElem?]
    cases hsn : s.copy n with
    | none => rw [hn n hsn]
    | some b' =>
      obtain ⟨c, h1, -, h3⟩ := hc n b' hsn
      rw [h1]; simp [h3]
  exact ⟨hp ▸ hs.legal, hp ▸ hall _ (by simp), fun b hb => hp ▸ hall b (by simp [hb]), hm, hp ▸ hi, hw ▸ hs.windows⟩

/-- Replacing a copy by one with the invariant and the same window keeps the invariant. -/
theorem State.Inv.setCopy {s : State} (hs : s.Inv) {n : Nat} {b c : Block} (hb : s.copy n = some b)
    (hc : c.Inv s.params) (hr : c.regBase = b.regBase) : (s.setCopy n c).Inv := by
  refine hs.of_copies (State.setCopy_params s n c) ((State.setCopy_mem s n c).symm ▸ hs.memWf)
    ((State.setCopy_mem s n c).symm ▸ hs.memIn) (fun m h => ?_) (fun m b' h => ?_)
  · rw [State.setCopy_copy hb]
    split
    · next he => subst he; rw [hb] at h; cases h
    · exact h
  · rw [State.setCopy_copy hb]
    split
    · next he => subst he; rw [hb] at h; cases h; exact ⟨c, rfl, hc, hr⟩
    · exact ⟨b', h, hs.copy h, rfl⟩

/-- Bringing a copy into focus keeps the invariant. -/
theorem State.Inv.focus {s : State} (hs : s.Inv) (n : Nat) : (s.focus n).Inv := by
  cases n with
  | zero => exact hs
  | succ k =>
    cases h : s.others[k]? with
    | none => simp only [State.focus, h]; exact hs
    | some b =>
      obtain ⟨hk, hb⟩ := List.getElem?_eq_some_iff.1 h
      have hf : s.focus (k + 1) = { s with blk := b, others := s.others.set k s.blk } := by simp only [State.focus, h]
      have hperm : (b :: s.others.set k s.blk).Perm (s.blk :: s.others) := by
        have h1 : s.others = s.others.take k ++ b :: s.others.drop (k + 1) := by rw [← hb]; simp
        rw [List.set_eq_take_append_cons_drop, if_pos hk]
        conv => rhs; rw [h1]
        exact (List.Perm.cons _ List.perm_middle).trans
          ((List.Perm.swap _ _ _).trans (List.Perm.cons _ List.perm_middle.symm))
      rw [hf]
      refine ⟨hs.legal, hs.others b (List.mem_of_getElem? h), fun c hc => ?_, hs.memWf, hs.memIn,
        (hperm.map _).nodup_iff.2 hs.windows⟩
      rcases List.mem_or_eq_of_mem_set hc with h1 | h1
      · exact hs.others c h1
      · rw [h1]; exact hs.blk

end Sys2Proof.Machine
end

