-- ==== Sys2Proof/Laws/PerInstr.lean ====
section
/-! SUPPORT. The family `WordClass`, one lemma per constructor of `Instr`: the formula of 30_encoding.md R50 calls the word of a
well-formed command illegal exactly for the row that stands for the illegal words. -/

namespace Sys2Proof.Laws.WordClass

/-- What the family says of one command. -/
def Statement (i : Instr) : Prop := i.wf = true → (illegalWord (encodeInstr i) = true ↔ ∃ w, i = .illegal w)

/-- A word whose reserved field is zero is its two other fields put together (R48). -/
theorem packCommand_fields {w : Word} (h : rsvField w = 0) : packCommand (opField w) (argField w) = w := by
  apply BitVec.eq_of_getLsbD_eq
  intro k hk
  have hr : ∀ j, (rsvField w).getLsbD j = false := fun j => by rw [h]; simp
  simp only [packCommand, opField, argField, BitVec.getLsbD_append, BitVec.getLsbD_extractLsb']
  by_cases h4 : k < 4
  · simp [h4]
  · by_cases h6 : k - 4 < 2
    · simp [h4, h6, show 4 + (k - 4) = k by omega]
    · have := hr (k - 6)
      simp only [rsvField, BitVec.getLsbD_extractLsb', show 6 + (k - 6) = k by omega,
        show decide (k - 6 < 26) = true by simp; omega, Bool.true_and] at this
      simp [h4, h6, this]

/-- Among the words with a zero reserved field, those the formula does not call illegal are the legal words. -/
theorem legal_of_fields : ∀ (op : BitVec 4) (arg : BitVec 2),
    illegalWord (packCommand op arg) = false → packCommand op arg ∈ legalWords := by decide

/-- A word that the formula does not call illegal is one of the legal words (R50). -/
theorem mem_legalWords {w : Word} (h : illegalWord w = false) : w ∈ legalWords := by
  have hr : rsvField w = 0 := by
    unfold illegalWord at h
    simp only [Bool.or_eq_false_iff] at h
    simpa using h.1.1.1.1
  rw [← packCommand_fields hr] at h ⊢
  exact legal_of_fields _ _ h

theorem of_legal {i : Instr} (h : illegalWord (encodeInstr i) = false) (hi : ∀ w, i ≠ .illegal w) : Statement i :=
  fun _ => ⟨fun h' => absurd (h.symm.trans h') (by decide), fun ⟨w, hw⟩ => absurd hw (hi w)⟩

theorem alut : Statement .alut := of_legal (by decide) (fun _ h => nomatch h)
theorem ilut : Statement .ilut := of_legal (by decide) (fun _ h => nomatch h)
theorem encblk1 : Statement .encblk1 := of_legal (by decide) (fun _ h => nomatch h)
theorem encblk2 : Statement .encblk2 := of_legal (by decide) (fun _ h => nomatch h)
theorem encblk3 : Statement .encblk3 := of_legal (by decide) (fun _ h => nomatch h)
theorem encode : Statement .encode := of_legal (by decide) (fun _ h => nomatch h)
theorem decblk0 : Statement .decblk0 := of_legal (by decide) (fun _ h => nomatch h)
theorem decblk1 : Statement .decblk1 := of_legal (by decide) (fun _ h => nomatch h)
theorem decode : Statement .decode := of_legal (by decide) (fun _ h => nomatch h)
theorem enclen : Statement .enclen := of_legal (by decide) (fun _ h => nomatch h)
theorem declen : Statement .declen := of_legal (by decide) (fun _ h => nomatch h)

theorem illegal (w : Word) : Statement (.illegal w) := by
  intro h
  refine ⟨fun _ => ⟨w, rfl⟩, fun _ => ?_⟩
  simp only [encodeInstr]
  by_contra hl
  have hm := mem_legalWords (Bool.eq_false_iff.2 hl)
  simp only [Instr.wf, List.contains_eq_mem, hm, decide_true, Bool.not_true] at h
  cases h

end Sys2Proof.Laws.WordClass
end

