-- ==== Sys2Proof/Laws/Text.lean ====
section
/-! SUPPORT. Base64 text in groups of four: the induction over a text's groups, and what the decoder's loop does on a group. -/

namespace Sys2Proof.Machine

/-- Induction over the groups of a text (42_decoder.md R82): the empty text, one more group in front, and a rest too short for
a group. -/
theorem text_induction {P : List Byte → Prop} (empty : P [])
    (group : ∀ c0 c1 c2 c3 rest, P rest → P (c0 :: c1 :: c2 :: c3 :: rest))
    (short : ∀ t, t ≠ [] → t.length < 4 → P t) : ∀ t, P t
  | [] => empty
  | [_] => short _ (by simp) (by simp)
  | [_, _] => short _ (by simp) (by simp)
  | [_, _, _] => short _ (by simp) (by simp)
  | c0 :: c1 :: c2 :: c3 :: rest => group c0 c1 c2 c3 rest (text_induction empty group short rest)

@[simp] theorem decodeGroups_nil (t : InverseTable) : decodeGroups t [] = .ok [] := rfl

/-- A rest too short for a group does not decode (R83). -/
theorem decodeGroups_short (t : InverseTable) {l : List Byte} (h0 : l ≠ []) (h4 : l.length < 4) :
    decodeGroups t l = .error .length := by
  match l with
  | [] => exact absurd rfl h0
  | [_] => rfl
  | [_, _] => rfl
  | [_, _, _] => rfl
  | _ :: _ :: _ :: _ :: _ => simp at h4; omega

/-- A text decodes when its first group does and its rest does; the bytes stand in that order (R82). -/
theorem decodeGroups_group_ok {t : InverseTable} {c0 c1 c2 c3 : Byte} {rest r : List Byte} :
    decodeGroups t (c0 :: c1 :: c2 :: c3 :: rest) = .ok r ↔
      ∃ g out, decGroup t c0 c1 c2 c3 rest.isEmpty = .ok g ∧ decodeGroups t rest = .ok out ∧ r = g ++ out := by
  constructor
  · intro h
    simp only [decodeGroups] at h
    split at h
    · cases h
    · next g hg =>
      split at h
      · cases h
      · next out ho => cases h; exact ⟨g, out, hg, ho, rfl⟩
  · rintro ⟨g, out, hg, ho, rfl⟩
    simp only [decodeGroups, hg, ho]

/-- A group's only error is `DecodeError` (R81). -/
theorem decGroup_error {t : InverseTable} {c0 c1 c2 c3 : Byte} {f : Bool} {e : ErrorKind}
    (h : decGroup t c0 c1 c2 c3 f = .error e) : e = .decode := by
  unfold decGroup at h
  split at h
  · cases h; rfl
  · split at h
    · cases h; rfl
    · cases h

end Sys2Proof.Machine
end

