-- ==== Sys2Proof/Tests/Slice0.lean ====
section
/-! SUPPORT. The model's own tests: ill-formed terms, words written out from the encodings of 30_encoding.md, one or two steps
per command with the expected values of 95_test_vectors.md, and a witness for the hypotheses of each statement. -/

namespace Sys2Proof.Tests

open Sys2Proof.Machine

/-! ### Well-formedness: `illegal` may not hold the word of another row (R49, R50) -/

theorem test_wf_refuses_alut_word : (Instr.illegal 0x00000001).wf = false := by decide
theorem test_wf_refuses_ilut_word : (Instr.illegal 0x00000002).wf = false := by decide
theorem test_wf_refuses_encblk_words :
    (Instr.illegal 0x00000013).wf = false ∧ (Instr.illegal 0x00000023).wf = false ∧ (Instr.illegal 0x00000033).wf = false := by
  decide
theorem test_wf_refuses_encode_word : (Instr.illegal 0x00000004).wf = false := by decide
theorem test_wf_refuses_decblk_words :
    (Instr.illegal 0x00000005).wf = false ∧ (Instr.illegal 0x00000015).wf = false := by decide
theorem test_wf_refuses_decode_word : (Instr.illegal 0x00000006).wf = false := by decide
theorem test_wf_refuses_length_words :
    (Instr.illegal 0x00000007).wf = false ∧ (Instr.illegal 0x00000008).wf = false := by decide
theorem test_wf_takes_other_words : (Instr.illegal 0x00000000).wf = true ∧ (Instr.illegal 0x00000025).wf = true := by decide

/-! ### Decoding: `RSV` 31:6, `ARG` 5:4, `OP` 3:0 written bit by bit from R48 and R49 -/

theorem test_decode_alut : decodeWord 0b00000000000000000000000000_00_0001#32 = .alut := by decide
theorem test_decode_ilut : decodeWord 0b00000000000000000000000000_00_0010#32 = .ilut := by decide
theorem test_decode_encblk1 : decodeWord 0b00000000000000000000000000_01_0011#32 = .encblk1 := by decide
theorem test_decode_encblk2 : decodeWord 0b00000000000000000000000000_10_0011#32 = .encblk2 := by decide
theorem test_decode_encblk3 : decodeWord 0b00000000000000000000000000_11_0011#32 = .encblk3 := by decide
theorem test_decode_encode : decodeWord 0b00000000000000000000000000_00_0100#32 = .encode := by decide
theorem test_decode_decblk0 : decodeWord 0b00000000000000000000000000_00_0101#32 = .decblk0 := by decide
theorem test_decode_decblk1 : decodeWord 0b00000000000000000000000000_01_0101#32 = .decblk1 := by decide
theorem test_decode_decode : decodeWord 0b00000000000000000000000000_00_0110#32 = .decode := by decide
theorem test_decode_enclen : decodeWord 0b00000000000000000000000000_00_0111#32 = .enclen := by decide
theorem test_decode_declen : decodeWord 0b00000000000000000000000000_00_1000#32 = .declen := by decide

/-- `K` = 0, bit 5 of `DECBLK`, a set `ARG`, both ends of `RSV`, and reserved opcodes (95_test_vectors.md 2.9). -/
theorem test_decode_illegal :
    decodeWord 0b00000000000000000000000000_00_0011#32 = .illegal 0x00000003
    ∧ decodeWord 0b00000000000000000000000000_10_0101#32 = .illegal 0x00000025
    ∧ decodeWord 0b00000000000000000000000000_01_0001#32 = .illegal 0x00000011
    ∧ decodeWord 0b00000000000000000000000001_00_0100#32 = .illegal 0x00000044
    ∧ decodeWord 0b10000000000000000000000000_00_0100#32 = .illegal 0x80000004
    ∧ decodeWord 0b00000000000000000000000000_00_0000#32 = .illegal 0x00000000
    ∧ decodeWord 0b00000000000000000000000000_00_1001#32 = .illegal 0x00000009
    ∧ decodeWord 0b00000000000000000000000000_00_1111#32 = .illegal 0x0000000F := by decide

/-- Every row's word encodes as R49 lists it, and the table's numbering gives the row's instruction. -/
theorem test_encode_words :
    [Instr.alut, .ilut, .encblk1, .encblk2, .encblk3, .encode, .decblk0, .decblk1, .decode, .enclen, .declen].map encodeInstr
      = [0x01, 0x02, 0x13, 0x23, 0x33, 0x04, 0x05, 0x15, 0x06, 0x07, 0x08]
    ∧ decodeTableWord 32 0x23 = some .encblk2 ∧ decodeTableWord 0 0 = none ∧ decodeTableWord 40 0x23 = none := by decide

/-! ### The alphabet's constraints (R62) -/

/-- The alphabet that differs from the standard one in entries 62 and 63, `-` and `_`, is excluded. -/
theorem test_url_safe_alphabet_excluded :
    ¬ AlphabetLegal (tabulate 64 (fun i => if i = 62 then 0x2D else if i = 63 then 0x5F else standardSymbol i)) :=
  fun h => h.notUrlSafe (by decide)

/-! ### Small states -/

/-- A copy at `base` whose operand registers the host has written and whose result registers hold 0xDEADBEEF and 7, as in
95_test_vectors.md 2.4. -/
def copyWith (base : Nat) (src slen dst dcap din : Word) : Block :=
  { Block.afterReset Params.default base with
    src := src, slen := slen, dst := dst, dcap := dcap, din := din, dout := 0xDEADBEEF, rlen := 7
    written := { src := true, slen := true, dst := true, dcap := true, din := true, dout := true, rlen := true } }

/-- One copy, or more, over a memory. -/
def platform (b : Block) (others : List Block) (cells : List Host.Cell) (program : List HostAction) : State :=
  { State.reset with blk := b, others := others, mem := { cells := cells }, program := program }

/-- One idle copy at 0. -/
def demo (src slen dst dcap din : Word) (cells : List Host.Cell) : State :=
  platform (copyWith 0 src slen dst dcap din) [] cells []

/-- One idle copy at 0 that needs `DIN` alone. -/
def withDin (din : Word) : State := demo 0 0 0 0 din []

/-- `STATUS.ERR`, `DOUT` and `RLEN` after a step. -/
def results : Host.Outcome State Fault Refusal → Option (Nat × Word × Word)
  | .next t => some (t.blk.status.err.toNat, t.blk.dout, t.blk.rlen)
  | .fault _ => none
  | .refused _ => none

/-- `STATUS.ERR`, `RLEN` and the listed memory after a step. -/
def memoryResults : Host.Outcome State Fault Refusal → Option (Nat × Word × List Host.Cell)
  | .next t => some (t.blk.status.err.toNat, t.blk.rlen, t.mem.cells)
  | .fault _ => none
  | .refused _ => none

/-! ### Commands on registers (95_test_vectors.md 2.1 to 2.4, 2.7) -/

theorem test_alut_ignores_high_bits : results (step ((withDin 0x000000C0).withFetchWord 32 0x01)) = some (0, 0x41, 7) := by
  decide
theorem test_alut_last : results (step ((withDin 0xFFFFFFFF).withFetchWord 32 0x01)) = some (0, 0x2F, 7) := by decide
theorem test_ilut_symbol : results (step ((withDin 0x12345654).withFetchWord 32 0x02)) = some (0, 0x13, 7) := by decide
theorem test_ilut_sentinels :
    results (step ((withDin 0x3D).withFetchWord 32 0x02)) = some (0, 0x7F, 7)
    ∧ results (step ((withDin 0x80).withFetchWord 32 0x02)) = some (0, 0x7F, 7) := by decide
theorem test_encblk1_ignores_lanes :
    results (step ((withDin 0xFFFFFFFF).withFetchWord 32 0x13)) = some (0, 0x2F773D3D, 4) := by decide
theorem test_encblk1_source_example :
    results (step ((withDin 0x004DFFFF).withFetchWord 32 0x13)) = some (0, 0x54513D3D, 4) := by decide
theorem test_encblk2_ignores_lane :
    results (step ((withDin 0x004D61FF).withFetchWord 32 0x23)) = some (0, 0x5457453D, 4) := by decide
theorem test_encblk2_low_bits :
    results (step ((withDin 0x00FBFF00).withFetchWord 32 0x23)) = some (0, 0x2B2F383D, 4) := by decide
theorem test_encblk3_source_example :
    results (step ((withDin 0xFF4D616E).withFetchWord 32 0x33)) = some (0, 0x54574675, 4) := by decide
theorem test_encblk3_order :
    results (step ((withDin 0x00666F6F).withFetchWord 32 0x33)) = some (0, 0x5A6D3976, 4) := by decide
theorem test_decblk0_full_group :
    results (step ((withDin 0x54574675).withFetchWord 32 0x05)) = some (0, 0x004D616E, 3) := by decide
theorem test_decblk0_refuses_padding :
    results (step ((withDin 0x54513D3D).withFetchWord 32 0x05)) = some (3, 0xDEADBEEF, 7) := by decide
theorem test_decblk1_padding :
    results (step ((withDin 0x54523D3D).withFetchWord 32 0x15)) = some (0, 0x004D0000, 1)
    ∧ results (step ((withDin 0x2B2F383D).withFetchWord 32 0x15)) = some (0, 0x00FBFF00, 2) := by decide
theorem test_decblk1_malformed :
    results (step ((withDin 0x41423D43).withFetchWord 32 0x15)) = some (3, 0xDEADBEEF, 7)
    ∧ results (step ((withDin 0x54578075).withFetchWord 32 0x15)) = some (3, 0xDEADBEEF, 7) := by decide
theorem test_enclen : results (step ((demo 0 1000000 0 0 0 []).withFetchWord 32 0x07)) = some (0, 0xDEADBEEF, 1333336) := by decide
theorem test_enclen_bound :
    results (step ((demo 0 3221225469 0 0 0 []).withFetchWord 32 0x07)) = some (0, 0xDEADBEEF, 4294967292)
    ∧ results (step ((demo 0 3221225470 0 0 0 []).withFetchWord 32 0x07)) = some (5, 0xDEADBEEF, 7) := by decide
theorem test_illegal_word :
    results (step ((withDin 0x54).withFetchWord 32 0x09)) = some (4, 0xDEADBEEF, 7)
    ∧ results (step ((withDin 0x54).withFetchWord 32 0x80000001)) = some (4, 0xDEADBEEF, 7) := by decide

/-! ### Commands on memory (95_test_vectors.md 2.5, 2.6, 2.8) -/

theorem test_encode_two_bytes :
    memoryResults (step ((demo 0x1000 2 0x2000 6 0
        [(0x1000, 0x4D), (0x1001, 0x61), (0x2003, 0xEE), (0x2004, 0xEE)]).withFetchWord 32 0x04))
      = some (0, 4, [(0x1000, 0x4D), (0x1001, 0x61), (0x2000, 0x54), (0x2001, 0x57), (0x2002, 0x45), (0x2003, 0x3D),
          (0x2004, 0xEE)]) := by decide
theorem test_encode_range_before_capacity :
    memoryResults (step ((demo 0xFFFFFFFF 2 0x2000 0 0 []).withFetchWord 32 0x04)) = some (5, 7, [])
    ∧ memoryResults (step ((demo 0x1000 1 0x2000 3 0 []).withFetchWord 32 0x04)) = some (1, 7, []) := by decide
theorem test_decode_two_groups :
    memoryResults (step ((demo 0x1000 8 0x2000 4 0
        [(0x1000, 0x54), (0x1001, 0x57), (0x1002, 0x46), (0x1003, 0x75), (0x1004, 0x54), (0x1005, 0x51), (0x1006, 0x3D),
          (0x1007, 0x3D)]).withFetchWord 32 0x06))
      = some (0, 4, [(0x1000, 0x54), (0x1001, 0x57), (0x1002, 0x46), (0x1003, 0x75), (0x1004, 0x54), (0x1005, 0x51),
          (0x1006, 0x3D), (0x1007, 0x3D), (0x2000, 0x4D), (0x2001, 0x61), (0x2002, 0x6E), (0x2003, 0x4D)]) := by decide
theorem test_decode_padding_before_the_end :
    memoryResults (step ((demo 0x1000 8 0x2000 6 0
        [(0x1000, 0x54), (0x1001, 0x51), (0x1002, 0x3D), (0x1003, 0x3D), (0x1004, 0x54), (0x1005, 0x57), (0x1006, 0x46),
          (0x1007, 0x75)]).withFetchWord 32 0x06))
      = some (3, 7, [(0x1000, 0x54), (0x1001, 0x51), (0x1002, 0x3D), (0x1003, 0x3D), (0x1004, 0x54), (0x1005, 0x57),
          (0x1006, 0x46), (0x1007, 0x75)]) := by decide
theorem test_declen_counts_two_positions :
    results (step ((demo 0x1000 4 0 0 0 [(0x1000, 0x41), (0x1001, 0x3D), (0x1002, 0x3D), (0x1003, 0x3D)]).withFetchWord 32 0x08))
      = some (0, 0xDEADBEEF, 1)
    ∧ results (step ((demo 0x1000 4 0 0 0 [(0x1000, 0x41), (0x1001, 0x42), (0x1002, 0x3D), (0x1003, 0x43)]).withFetchWord 32 0x08))
      = some (0, 0xDEADBEEF, 2) := by decide
theorem test_declen_errors :
    results (step ((demo 0x1000 5 0 0 0 []).withFetchWord 32 0x08)) = some (2, 0xDEADBEEF, 7)
    ∧ results (step ((demo 0xFFFFFFFF 2 0 0 0 []).withFetchWord 32 0x08)) = some (5, 0xDEADBEEF, 7) := by decide

/-! ### The whole machine -/

/-- P4 of 95_test_vectors.md, actions 2 to 4, from reset: `WR DIN`, `ENCBLK 2`, `WAIT`. -/
theorem test_program_from_reset :
    results (Host.Core.run core 4 { State.reset with program := [wr 0 .din 0x004D6100, command 0 .encblk2, .wait 0] })
      = some (0, 0x5457453D, 4) := by decide

/-- A write while `BUSY` = 1 is dropped (R17, R119). -/
theorem test_write_while_busy_dropped :
    (match step (platform ((copyWith 0 0 3 0 0 0).accept 0x07) [] [] [wr 0 .slen 9]) with
      | .next t => some (t.blk.slen, t.blk.status.word)
      | .fault _ => none
      | .refused _ => none) = some (3, 0x00000001) := by decide

/-! ### Witnesses: states that meet the invariant -/

theorem copyWith_inv {base : Nat} (h : base % windowBytes = 0) (src slen dst dcap din : Word) :
    (copyWith base src slen dst dcap din).Inv Params.default :=
  ⟨h, Nat.zero_le 5, rfl, (fun h => nomatch h), src.isLt, dst.isLt, slen.isLt, dcap.isLt, (7 : Word).isLt, rfl, rfl⟩

theorem accept_inv {b : Block} (h : b.Inv Params.default) (w : Word) : (b.accept w).Inv Params.default :=
  { h with err := Nat.zero_le 5, pending := rfl, busyErr := fun _ => rfl }

theorem platform_inv {b : Block} {others : List Block} {cells : List Host.Cell} (program : List HostAction)
    (hb : b.Inv Params.default) (ho : ∀ c ∈ others, c.Inv Params.default)
    (hw : ((b :: others).map Block.regBase).Nodup) (hm : Memory.wf { cells := cells }) (hi : ∀ c ∈ cells, c.1 < 2 ^ 32) :
    (platform b others cells program).Inv :=
  ⟨paramsLegal_default, hb, ho, hm, hi, hw⟩

theorem demo_inv (src slen dst dcap din : Word) {cells : List Host.Cell} (hm : Memory.wf { cells := cells })
    (hi : ∀ c ∈ cells, c.1 < 2 ^ 32) : (demo src slen dst dcap din cells).Inv :=
  platform_inv [] (copyWith_inv rfl src slen dst dcap din) (fun _ h => nomatch h) (List.nodup_singleton _) hm hi

theorem withDin_inv (din : Word) : (withDin din).Inv := demo_inv 0 0 0 0 din (by decide) (by decide)

/-- Two copies with windows at 0 and 64. -/
def pair (b c : Block) (program : List HostAction) : State := platform b [c] [] program

theorem pair_inv {b c : Block} (program : List HostAction) (hb : b.Inv Params.default) (hc : c.Inv Params.default)
    (h : b.regBase ≠ c.regBase) : (pair b c program).Inv :=
  platform_inv program hb (by simpa using hc) (by simpa using h) (by decide) (by decide)

/-- `Man` at 0x1000. -/
def manCells : List Host.Cell := [(0x1000, 0x4D), (0x1001, 0x61), (0x1002, 0x6E)]

/-- `TQ==` at 0x1000. -/
def textCells : List Host.Cell := [(0x1000, 0x54), (0x1001, 0x51), (0x1002, 0x3D), (0x1003, 0x3D)]

/-- `T*==` at 0x1000. -/
def badCells : List Host.Cell := [(0x1000, 0x54), (0x1001, 0x2A), (0x1002, 0x3D), (0x1003, 0x3D)]

theorem std_not_symbol {c : Byte} (h : ∀ i : Sextet, standardSymbol i.toNat ≠ c) : ¬ IsSymbol standardAlphabet c :=
  fun ⟨i, hi⟩ => h i ((alpha_standard i).symm.trans hi)

theorem std_symbol {c : Byte} (i : Sextet) (h : standardSymbol i.toNat = c) : IsSymbol standardAlphabet c :=
  ⟨i, (alpha_standard i).trans h⟩

theorem bad_text_malformed : Malformed standardAlphabet [0x54, 0x2A, 0x3D, 0x3D] :=
  .inl ⟨0x2A, by decide, by decide, std_not_symbol (by decide)⟩

theorem good_text_not_malformed : ¬ Malformed standardAlphabet [0x54, 0x51, 0x3D, 0x3D] := by
  rintro (⟨c, hc, hp, hs⟩ | ⟨j, k, hjk, hk, hj, hk'⟩ | h)
  · simp only [List.mem_cons, List.not_mem_nil, or_false] at hc
    rcases hc with rfl | rfl | rfl | rfl
    · exact hs (std_symbol 19 (by decide))
    · exact hs (std_symbol 16 (by decide))
    · exact hp (by decide)
    · exact hp (by decide)
  · simp only [List.length_cons, List.length_nil] at hk
    have : k = 1 ∨ k = 2 ∨ k = 3 := by omega
    rcases this with rfl | rfl | rfl
    · have : j = 0 := by omega
      subst this; revert hj; decide
    · exact hk' (by decide)
    · exact hk' (by decide)
  · revert h; decide

/-! ### Witnesses: one theorem per statement with hypotheses, a boundary value for each clause -/

theorem witness_DecodeInvertsEncode :
    Instr.encblk2.wf = true ∧ (Instr.illegal 0x00000009).wf = true ∧ (Instr.illegal 0xFFFFFFFF).wf = true := by decide

theorem witness_ElevenWordsAreLegal : (0 : Word) ∉ legalWords ∧ (9 : Word) ∉ legalWords ∧ (0x80000004 : Word) ∉ legalWords := by
  decide

theorem witness_InverseTableInvertsAlphabet : AlphabetLegal standardAlphabet ∧ IsSymbol standardAlphabet 0x2F
    ∧ ¬ IsSymbol standardAlphabet 0x3D :=
  ⟨alphabetLegal_standard, std_symbol 63 (by decide), std_not_symbol (by decide)⟩

theorem witness_DefaultAlphabetIsStandard :
    (25 : Sextet).toNat ≤ 25 ∧ (26 ≤ (26 : Sextet).toNat ∧ (51 : Sextet).toNat ≤ 51)
      ∧ (52 ≤ (52 : Sextet).toNat ∧ (61 : Sextet).toNat ≤ 61) := by decide

theorem witness_IlutLooksUpInverse :
    (withDin 0x2F).Inv ∧ alpha (withDin 0x2F).params.alphabet 63 = BitVec.ofNat 8 (withDin 0x2F).blk.din.toNat
    ∧ (withDin 0x3D).Inv ∧ ¬ IsSymbol (withDin 0x3D).params.alphabet (BitVec.ofNat 8 (withDin 0x3D).blk.din.toNat) :=
  ⟨withDin_inv _, by decide, withDin_inv _, std_not_symbol (c := 0x3D) (by decide)⟩

theorem witness_EncblkEncodesOneGroup : (withDin 0xFFFFFFFF).params.Legal := paramsLegal_default

theorem witness_EncodingIsGroupwise : ([] : List Byte).length % 3 = 0 ∧ ([0x4D, 0x61, 0x6E] : List Byte).length % 3 = 0 := by
  decide

theorem witness_EncoderLaws : AlphabetLegal standardAlphabet ∧ 3 < (encodeBytes standardAlphabet [0x4D]).length
    ∧ (0x54 : Byte) ∈ encodeBytes standardAlphabet [0x4D] ∧ (0x54 : Byte) ≠ padSymbol :=
  ⟨alphabetLegal_standard, by decide, by decide, by decide⟩

/-- Both an exact destination and the last byte of memory as the source, with `SLEN` = 1, and the empty buffer. -/
theorem witness_EncodeWritesEncoding :
    (let s := demo 0x1000 3 0x2000 4 0 manCells
     s.Inv ∧ s.SrcFits ∧ s.DstFits ∧ encodedLength s.blk.slen.toNat ≤ s.blk.dcap.toNat ∧ s.blk.RegionsDisjoint)
    ∧ (let s := demo 0xFFFFFFFF 1 0x2000 4 0 []
       s.Inv ∧ s.SrcFits ∧ s.DstFits ∧ encodedLength s.blk.slen.toNat ≤ s.blk.dcap.toNat ∧ s.blk.RegionsDisjoint)
    ∧ (let s := demo 5 0 5 0 0 []
       s.Inv ∧ s.SrcFits ∧ s.DstFits ∧ encodedLength s.blk.slen.toNat ≤ s.blk.dcap.toNat ∧ s.blk.RegionsDisjoint) := by
  refine ⟨⟨demo_inv _ _ _ _ _ (by decide) (by decide), ?_⟩, ⟨demo_inv _ _ _ _ _ (by decide) (by decide), ?_⟩,
    ⟨demo_inv _ _ _ _ _ (by decide) (by decide), ?_⟩⟩ <;>
  exact ⟨(State.srcOk_iff _).1 (by decide), (State.dstOk_iff _).1 (by decide), by decide,
    (Block.overlaps_eq_false _).1 (by decide)⟩

theorem not_both_fit {s : State} (h : (s.srcOk && s.dstOk) = false) : ¬ (s.SrcFits ∧ s.DstFits) := by
  rintro ⟨h1, h2⟩
  rw [(State.srcOk_iff s).2 h1, (State.dstOk_iff s).2 h2] at h
  cases h

theorem witness_EncodeErrorOrder :
    (¬ ((demo 0xFFFFFFFF 2 0x2000 0 0 []).SrcFits ∧ (demo 0xFFFFFFFF 2 0x2000 0 0 []).DstFits))
    ∧ (¬ ((demo 0x1000 1 0xFFFFFFFD 4 0 []).SrcFits ∧ (demo 0x1000 1 0xFFFFFFFD 4 0 []).DstFits))
    ∧ (let s := demo 0x1000 1 0x2000 3 0 []
       s.SrcFits ∧ s.DstFits ∧ s.blk.dcap.toNat < encodedLength s.blk.slen.toNat) :=
  ⟨not_both_fit (by decide), not_both_fit (by decide), (State.srcOk_iff _).1 (by decide), (State.dstOk_iff _).1 (by decide),
    by decide⟩

/-- `TWFu`, `TWE=` and `TQ==`: values 19, 22, 5, 46; 19, 22, 4; 19, 16. -/
theorem witness_DecblkEmitsBytes :
    (let s := withDin 0x54574675
     s.Inv ∧ s.blk.din.toNat = (((alpha s.params.alphabet 19).toNat * 256 + (alpha s.params.alphabet 22).toNat) * 256
        + (alpha s.params.alphabet 5).toNat) * 256 + (alpha s.params.alphabet 46).toNat ∧ Instr.decblk0 ∈ [Instr.decblk0, .decblk1])
    ∧ (let s := withDin 0x5457453D
       s.Inv ∧ s.blk.din.toNat = (((alpha s.params.alphabet 19).toNat * 256 + (alpha s.params.alphabet 22).toNat) * 256
        + (alpha s.params.alphabet 4).toNat) * 256 + 0x3D)
    ∧ (let s := withDin 0x54513D3D
       s.Inv ∧ s.blk.din.toNat = (((alpha s.params.alphabet 19).toNat * 256 + (alpha s.params.alphabet 16).toNat) * 256
        + 0x3D) * 256 + 0x3D) :=
  ⟨⟨withDin_inv _, by decide, by decide⟩, ⟨withDin_inv _, by decide⟩, ⟨withDin_inv _, by decide⟩⟩

theorem witness_DecblkRejectsMalformed :
    (let s := withDin 0x542A3D3D
     let g := [s.blk.din.extractLsb' 24 8, s.blk.din.extractLsb' 16 8, s.blk.din.extractLsb' 8 8, s.blk.din.extractLsb' 0 8]
     s.Inv ∧ Malformed s.params.alphabet g)
    ∧ (let s := withDin 0x54513D3D
       let g := [s.blk.din.extractLsb' 24 8, s.blk.din.extractLsb' 16 8, s.blk.din.extractLsb' 8 8, s.blk.din.extractLsb' 0 8]
       s.Inv ∧ ¬ Malformed s.params.alphabet g ∧ padSymbol ∈ g) :=
  ⟨⟨withDin_inv _, bad_text_malformed⟩, ⟨withDin_inv _, good_text_not_malformed, by decide⟩⟩

theorem witness_DecoderRejectsExactlyMalformed :
    AlphabetLegal standardAlphabet ∧ ([0x54, 0x51, 0x3D] : List Byte).length % 4 ≠ 0
    ∧ (([0x54, 0x2A, 0x3D, 0x3D] : List Byte).length % 4 = 0 ∧ Malformed standardAlphabet [0x54, 0x2A, 0x3D, 0x3D])
    ∧ (([0x54, 0x51, 0x3D, 0x3D] : List Byte).length % 4 = 0 ∧ ¬ Malformed standardAlphabet [0x54, 0x51, 0x3D, 0x3D]) :=
  ⟨alphabetLegal_standard, by decide, ⟨by decide, bad_text_malformed⟩, ⟨by decide, good_text_not_malformed⟩⟩

theorem witness_DecodedLengthAgrees :
    decodeBytes (inverseOf standardAlphabet) [0x54, 0x57, 0x45, 0x3D] = .ok [0x4D, 0x61]
    ∧ decodeBytes (inverseOf standardAlphabet) [] = .ok [] := ⟨rfl, rfl⟩

theorem witness_DecodeWritesBytes :
    let s := demo 0x1000 4 0x2000 1 0 textCells
    s.Inv ∧ s.SrcFits ∧ s.DstFits
    ∧ decodeBytes (inverseOf s.params.alphabet) (s.mem.readBytes s.blk.src.toNat s.blk.slen.toNat) = .ok [0x4D]
    ∧ ([0x4D] : List Byte).length ≤ s.blk.dcap.toNat ∧ s.blk.RegionsDisjoint :=
  ⟨demo_inv _ _ _ _ _ (by decide) (by decide), (State.srcOk_iff _).1 (by decide), (State.dstOk_iff _).1 (by decide), rfl,
    by decide, (Block.overlaps_eq_false _).1 (by decide)⟩

theorem witness_DecodeErrorOrder :
    (let s := demo 0xFFFFFFFF 4 0x2000 0 0 []
     s.Inv ∧ ¬ (s.SrcFits ∧ s.DstFits))
    ∧ (let s := demo 0x1000 3 0x2000 4 0 badCells
       s.Inv ∧ s.SrcFits ∧ s.DstFits ∧ s.blk.slen.toNat % 4 ≠ 0)
    ∧ (let s := demo 0x1000 4 0x2000 0 0 badCells
       s.Inv ∧ s.SrcFits ∧ s.DstFits ∧ s.blk.slen.toNat % 4 = 0
        ∧ Malformed s.params.alphabet (s.mem.readBytes s.blk.src.toNat s.blk.slen.toNat))
    ∧ (let s := demo 0x1000 4 0x2000 0 0 textCells
       s.Inv ∧ s.SrcFits ∧ s.DstFits
        ∧ decodeBytes (inverseOf s.params.alphabet) (s.mem.readBytes s.blk.src.toNat s.blk.slen.toNat) = .ok [0x4D]
        ∧ s.blk.dcap.toNat < ([0x4D] : List Byte).length) :=
  ⟨⟨demo_inv _ _ _ _ _ (by decide) (by decide), not_both_fit (by decide)⟩,
   ⟨demo_inv _ _ _ _ _ (by decide) (by decide), (State.srcOk_iff _).1 (by decide), (State.dstOk_iff _).1 (by decide), by decide⟩,
   ⟨demo_inv _ _ _ _ _ (by decide) (by decide), (State.srcOk_iff _).1 (by decide), (State.dstOk_iff _).1 (by decide), by decide,
    bad_text_malformed⟩,
   ⟨demo_inv _ _ _ _ _ (by decide) (by decide), (State.srcOk_iff _).1 (by decide), (State.dstOk_iff _).1 (by decide), rfl,
    by decide⟩⟩

theorem witness_DecodingInvertsEncoding : AlphabetLegal standardAlphabet := alphabetLegal_standard

/-- The state after the `ENCODE` of a round trip, with its fields as the rules give them. -/
theorem witness_BufferRoundTrip :
    let s := demo 0x1000 3 0x2000 4 0 manCells
    ∃ t, s.Inv ∧ exec .encode s = .next t ∧ t.blk.status.err = 0
      ∧ (0x3000 : Word).toNat + (3 : Word).toNat ≤ 2 ^ s.params.addrW ∧ s.blk.slen.toNat ≤ (3 : Word).toNat
      ∧ ∀ a, ¬ (t.blk.dst.toNat ≤ a ∧ a < t.blk.dst.toNat + t.blk.rlen.toNat
          ∧ (0x3000 : Word).toNat ≤ a ∧ a < (0x3000 : Word).toNat + (3 : Word).toNat) := by
  refine ⟨_, demo_inv _ _ _ _ _ (by decide) (by decide), rfl, rfl, by decide, by decide, fun a h => ?_⟩
  have h1 : a < 0x2004 := h.2.1
  have h2 : 0x3000 ≤ a := h.2.2.1
  omega

theorem witness_EnclenComputesLength :
    ((0x17 : Word).toNat % 16 = 7 ∧ (0x17 : Word) ≠ 0x00000007)
    ∧ (let s := demo 0 3221225469 0 0 0 []
     s.params.Legal ∧ 4 * ((s.blk.slen.toNat + 2) / 3) < 2 ^ s.params.lenW)
    ∧ (let s := demo 0 3221225470 0 0 0 []
       s.params.Legal ∧ 2 ^ s.params.lenW ≤ 4 * ((s.blk.slen.toNat + 2) / 3)) :=
  ⟨by decide, ⟨paramsLegal_default, by decide⟩, ⟨paramsLegal_default, by decide⟩⟩

theorem witness_DeclenComputesLength :
    ((0x80000008 : Word).toNat % 16 = 8 ∧ (0x80000008 : Word) ≠ 0x00000008)
    ∧ (let s := demo 0xFFFFFFFE 3 0 0 0 []
     s.Inv ∧ ¬ s.SrcFits)
    ∧ (let s := demo 0xFFFFFFFD 3 0 0 0 []
       s.Inv ∧ s.SrcFits ∧ s.blk.slen.toNat % 4 ≠ 0)
    ∧ (let s := demo 0xFFFFFFFC 4 0 0 0 []
       s.Inv ∧ s.SrcFits ∧ s.blk.slen.toNat % 4 = 0)
    ∧ (let s := demo 7 0 0 0 0 []
       s.Inv ∧ s.SrcFits ∧ s.blk.slen.toNat % 4 = 0) :=
  ⟨by decide, ⟨demo_inv _ _ _ _ _ (by decide) (by decide), mt (State.srcOk_iff _).2 (by decide)⟩,
   ⟨demo_inv _ _ _ _ _ (by decide) (by decide), (State.srcOk_iff _).1 (by decide), by decide⟩,
   ⟨demo_inv _ _ _ _ _ (by decide) (by decide), (State.srcOk_iff _).1 (by decide), by decide⟩,
   ⟨demo_inv _ _ _ _ _ (by decide) (by decide), (State.srcOk_iff _).1 (by decide), by decide⟩⟩

theorem witness_DecodedLengthDoesNotValidate :
    (let t : List Byte := [0x41, 0x42, 0x3D, 0x43]
     let u : List Byte := [0x00, 0xFF, 0x3D, 0x43]
     t.length = u.length ∧ t.getD (t.length - 2) 0 = u.getD (u.length - 2) 0
      ∧ t.getD (t.length - 1) 0 = u.getD (u.length - 1) 0)
    ∧ decodedLength [0x41] = .error .length := by decide

theorem witness_ResultWidths :
    decodedLength [0x54, 0x57, 0x46, 0x75] = .ok 3
    ∧ (let s := demo 0x40000000 0xC0000000 0x10 0xFFFFFFF0 0 []
       s.Inv ∧ s.blk.slen.toNat > 3 * ((2 ^ s.params.lenW - 1) / 4) ∧ s.SrcFits ∧ s.DstFits)
    ∧ (let s := demo 0 3221225470 0 0 0 []
       s.Inv ∧ s.blk.slen.toNat > 3 * ((2 ^ s.params.lenW - 1) / 4) ∧ s.SrcFits ∧ s.DstFits) :=
  ⟨by decide,
   ⟨demo_inv _ _ _ _ _ (by decide) (by decide), by decide, (State.srcOk_iff _).1 (by decide), (State.dstOk_iff _).1 (by decide)⟩,
   ⟨demo_inv _ _ _ _ _ (by decide) (by decide), by decide, (State.srcOk_iff _).1 (by decide), (State.dstOk_iff _).1 (by decide)⟩⟩

theorem witness_EveryCommandEnds : ∃ t, exec .declen (demo 0x1000 4 0 0 0 textCells) = .next t := ⟨_, rfl⟩

theorem witness_ErrorsChangeOnlyStatus :
    ∃ t, exec .encode (demo 0x1000 1 0x2000 3 0 []) = .next t ∧ t.blk.status.err ≠ 0 := ⟨_, rfl, by decide⟩

theorem witness_CommandsKeepOperands : ∃ t, exec .alut (withDin 0x13) = .next t := ⟨_, rfl⟩

theorem witness_WritesStayInDestination :
    let s := demo 0x1000 3 0x2000 4 0 manCells
    ∃ t, s.Inv ∧ exec .encode s = .next t ∧ t.mem.read 0x2003 ≠ s.mem.read 0x2003 :=
  ⟨_, demo_inv _ _ _ _ _ (by decide) (by decide), rfl, by decide⟩

theorem witness_ReadsStayInSource :
    let s := demo 0x1000 3 0x2000 4 0 manCells
    let m : Memory := { cells := manCells ++ [(0x2003, 0xEE)] }
    (∀ a, s.blk.src.toNat ≤ a → a < s.blk.src.toNat + s.blk.slen.toNat → m.read a = s.mem.read a)
      ∧ ∃ t, exec .encode s = .next t := by
  refine ⟨fun a h1 h2 => ?_, ⟨_, rfl⟩⟩
  have h1' : 0x1000 ≤ a := h1
  have h2' : a < 0x1003 := h2
  have : a = 0x1000 ∨ a = 0x1001 ∨ a = 0x1002 := by omega
  rcases this with rfl | rfl | rfl <;> decide

/-- Other result registers, and another `DIN` where the command does not read it. -/
theorem witness_CommandsReadOnlyTheirOperands :
    let s := demo 0x1000 3 0x2000 4 0 manCells
    let c := { copyWith 0 0x1000 3 0x2000 4 0x55 with dout := 1, rlen := 2 }
    (∀ r ∈ operandRegs .encode, c.regValue r = s.blk.regValue r)
      ∧ c.alphabetLut = s.blk.alphabetLut ∧ c.inverseLut = s.blk.inverseLut ∧ ∃ t, exec .encode s = .next t :=
  ⟨by decide, rfl, rfl, _, rfl⟩

/-- One common byte, after the checks have passed, and the same overlap in a command that ends with an error. -/
theorem witness_OverlapFaults :
    exec .encode (demo 0x1000 3 0x1002 4 0 manCells) = .fault .overlappingRegions
    ∧ exec .decode (demo 0x1000 4 0x1003 1 0 textCells) = .fault .overlappingRegions
    ∧ ∃ t, exec .encode (demo 0x1000 3 0x1002 3 0 manCells) = .next t := ⟨rfl, rfl, _, rfl⟩

theorem witness_StepRunsPendingCommand :
    let s := platform ((copyWith 0 0 0 0 0 0x13).accept 0x01) [copyWith 64 0 0 0 0 0] [] [.engine 0]
    s.program = .engine 0 :: [] ∧ s.blk.status.busy = true ∧ s.blk.pending = some 0x01
      ∧ s.others.any (State.copiesConflict { s with program := [] } s.blk) = false := by decide

/-- Copy 1 runs `ALUT` while copy 0 is idle. -/
theorem witness_EngineActsOnItsCopy :
    let s := pair (copyWith 0 0 0 0 0 0) ((copyWith 64 0 0 0 0 0x13).accept 0x01) []
    let b := (copyWith 64 0 0 0 0 0x13).accept 0x01
    (∃ t, s.engineStep 1 = .next t) ∧ s.copy 1 = some b ∧ b.status.busy = true ∧ b.pending = some 0x01 :=
  ⟨⟨_, rfl⟩, rfl, rfl, rfl⟩

theorem witness_IdleEngineDoesNothing :
    let s := pair (copyWith 0 0 0 0 0 0) (copyWith 64 0 0 0 0 0) []
    s.copy 1 = some (copyWith 64 0 0 0 0 0) ∧ (copyWith 64 0 0 0 0 0).status.busy = false := ⟨rfl, rfl⟩

/-- First copy 0 writes into the source of copy 1, whose turn it is; then copy 1 writes into the source of copy 0, and the turn is
of either. -/
theorem witness_OverlappingCopiesFault :
    let b := (copyWith 0 0x1000 3 0x2000 4 0).accept 0x04
    let c := (copyWith 64 0x2003 4 0x4000 3 0).accept 0x06
    let d := (copyWith 0 0x2003 4 0 0 0).accept 0x08
    let e := (copyWith 64 0x1000 3 0x2000 4 0).accept 0x04
    (let s := pair b c []
     s.copy 1 = some c ∧ s.copy 0 = some b ∧ c.status.busy = true ∧ c.pending = some 0x06 ∧ b.status.busy = true
      ∧ s.runningWriter b = true ∧ b.dstRegion.contains 0x2003 = true ∧ c.srcRegion.contains 0x2003 = true)
    ∧ (let s := pair d e []
       s.copy 0 = some d ∧ s.copy 1 = some e ∧ d.status.busy = true ∧ d.pending = some 0x08 ∧ e.status.busy = true
        ∧ e.pending = some 0x04 ∧ s.runningWriter e = true ∧ e.dstRegion.contains 0x2003 = true
        ∧ d.srcRegion.contains 0x2003 = true) :=
  ⟨⟨rfl, rfl, rfl, rfl, rfl, rfl, rfl, rfl⟩, ⟨rfl, rfl, rfl, rfl, rfl, rfl, rfl, rfl, rfl⟩⟩

/-- Copy 0 runs while the engine of copy 1 takes a turn. -/
theorem witness_RunningCopyIsStable :
    let s := pair ((copyWith 0 0 3 0 0 0).accept 0x07) ((copyWith 64 0 0 0 0 0x13).accept 0x01) [.engine 1]
    s.program = .engine 1 :: [] ∧ HostAction.engine 1 ≠ .engine 0 ∧ HostAction.engine 1 ≠ .wait 0
      ∧ s.copy 0 = some ((copyWith 0 0 3 0 0 0).accept 0x07) ∧ ((copyWith 0 0 3 0 0 0).accept 0x07).status.busy = true
      ∧ ∃ t, step s = .next t := ⟨rfl, by decide, by decide, rfl, rfl, _, rfl⟩

/-- Copy 1 keeps its operands while its own `ENCODE` runs, and while copy 0 is reset. -/
theorem witness_OperandsStayWritten :
    (let s := pair (copyWith 0 0 0 0 0 0) ((copyWith 64 0x1000 3 0x2000 4 0).accept 0x04) [.engine 1]
     s.copy 1 = some ((copyWith 64 0x1000 3 0x2000 4 0).accept 0x04)
      ∧ ((copyWith 64 0x1000 3 0x2000 4 0).accept 0x04).OperandsWritten .encode
      ∧ s.program.head? ≠ some (.reset 1) ∧ ∃ t, step s = .next t)
    ∧ (let s := pair (copyWith 0 0 0 0 0 0) (copyWith 64 0x1000 3 0x2000 4 0) [.reset 0]
       s.copy 1 = some (copyWith 64 0x1000 3 0x2000 4 0)
        ∧ (copyWith 64 0x1000 3 0x2000 4 0).OperandsWritten .decode
        ∧ s.program.head? ≠ some (.reset 1) ∧ ∃ t, step s = .next t) :=
  ⟨⟨rfl, (by decide : ∀ r ∈ operandRegs .encode, _), by decide, _, rfl⟩,
   ⟨rfl, (by decide : ∀ r ∈ operandRegs .decode, _), by decide, _, rfl⟩⟩

/-- `ENCLEN` on a copy of which only `SLEN` has been written since reset, the turn coming by `WAIT`; in the other copy every other
register holds something else. -/
theorem witness_EngineTurnOnOneCopyIgnoresUnwrittenRegisters :
    let b := ({ Block.afterReset Params.default 0 with slen := 3, written := { Written.nothing with slen := true } } : Block).accept 0x07
    let c := { b with src := 1, dst := 2, dcap := 3, din := 4, dout := 5, rlen := 6 }
    let s := platform b [] [] [.wait 0]
    s.others = [] ∧ s.SafeStep ∧ s.engineTurn = some 0 ∧ s.blk.status.busy = true
      ∧ (∀ r, s.blk.hasValue r = true → c.regValue r = s.blk.regValue r)
      ∧ c.status = s.blk.status ∧ c.pending = s.blk.pending
      ∧ c.alphabetLut = s.blk.alphabetLut ∧ c.inverseLut = s.blk.inverseLut ∧ ∃ t, step s = .next t := by
  refine ⟨rfl, ⟨⟨_, rfl⟩, ?_⟩, rfl, rfl, ?_, rfl, rfl, rfl, rfl, _, rfl⟩
  · intro n b w hn hb hw
    cases hn; cases hb; cases hw
    intro r hr
    rw [show operandRegs (decodeWord 0x07) = [.slen] by decide, List.mem_singleton] at hr
    rw [hr]; rfl
  · intro r hr
    cases r <;> first | rfl | cases hr

theorem witness_ReadsAndMemoryAccessesKeepRegisters :
    (∃ t, step (platform (copyWith 0 0 0 0 0 0) [] [] [.busRead 0x3C 32]) = .next t)
    ∧ (∃ t, step (platform (copyWith 0 0 0 0 0 0) [] [] [.memRead 0xFFFFFFFF]) = .next t)
    ∧ (∃ t, step (platform (copyWith 0 0 0 0 0 0) [] [] [.memWrite 0xFFFFFFFF 0xEE]) = .next t) :=
  ⟨⟨_, rfl⟩, ⟨_, rfl⟩, ⟨_, rfl⟩⟩

theorem witness_WaitEnds :
    (let s := platform (copyWith 0 0 0 0 0 0) [] [] [.wait 0]
     s.Inv ∧ s.program = .wait 0 :: [] ∧ s.copy 0 = some s.blk ∧ s.blk.status.busy = false)
    ∧ (let s := platform ((copyWith 0 0 3 0 0 0).accept 0x07) [] [] [.wait 0]
       s.Inv ∧ s.program = .wait 0 :: [] ∧ s.copy 0 = some s.blk ∧ s.blk.status.busy = true ∧ ∃ t, step s = .next t) :=
  ⟨⟨platform_inv _ (copyWith_inv rfl _ _ _ _ _) (fun _ h => nomatch h) (by decide) (by decide) (by decide), rfl, rfl, rfl⟩,
   ⟨platform_inv _ (accept_inv (copyWith_inv rfl _ _ _ _ _) _) (fun _ h => nomatch h) (by decide) (by decide) (by decide),
    rfl, rfl, rfl, _, rfl⟩⟩

theorem witness_RunningCommandsComplete :
    (let s := pair (copyWith 0 0 0 0 0 0) (copyWith 64 0 0 0 0 0) []
     s.Inv ∧ s.program = [] ∧ ∀ b ∈ s.blk :: s.others, b.status.busy = false)
    ∧ (let s := pair (copyWith 0 0 0 0 0 0) ((copyWith 64 0 0 0 0 0x13).accept 0x01) []
       s.Inv ∧ s.program = [] ∧ (∃ b ∈ s.blk :: s.others, b.status.busy = true) ∧ ∃ t, step s = .next t) :=
  ⟨⟨pair_inv _ (copyWith_inv rfl _ _ _ _ _) (copyWith_inv rfl _ _ _ _ _) (by decide), rfl, by
      intro b hb
      simp only [pair, platform, List.mem_cons, List.not_mem_nil, or_false] at hb
      rcases hb with rfl | rfl <;> rfl⟩,
   ⟨pair_inv _ (copyWith_inv rfl _ _ _ _ _) (accept_inv (copyWith_inv rfl _ _ _ _ _) _) (by decide), rfl,
    ⟨_, List.mem_cons_of_mem _ (List.mem_singleton.2 rfl), rfl⟩, _, rfl⟩⟩

/-! ### Witnesses: the register port, memory and reset, on the second of two copies where there is a choice -/

/-- Copy 1 idle, and copy 1 running. -/
def idlePair : State := pair (copyWith 0 0 0 0 0 0) (copyWith 64 0x1000 3 0x2000 4 0) []
def busyPair : State := pair (copyWith 0 0 0 0 0 0) ((copyWith 64 0x1000 3 0x2000 4 0).accept 0x04) []

theorem witness_CmdWriteAccepts :
    (idlePair.copyAt 0x40 = some (1, copyWith 64 0x1000 3 0x2000 4 0) ∧ (copyWith 64 0x1000 3 0x2000 4 0).status.busy = false
      ∧ 0x40 = (copyWith 64 0x1000 3 0x2000 4 0).regBase)
    ∧ (busyPair.copyAt 0x40 = some (1, (copyWith 64 0x1000 3 0x2000 4 0).accept 0x04)
      ∧ ((copyWith 64 0x1000 3 0x2000 4 0).accept 0x04).status.busy = true) := ⟨⟨rfl, rfl, rfl⟩, rfl, rfl⟩

/-- The first and the last reserved offset, and a write while busy. -/
theorem witness_IneffectiveRegisterWrites :
    (idlePair.copyAt 0x64 = some (1, copyWith 64 0x1000 3 0x2000 4 0) ∧ (0x64 - 64) % 4 = 0 ∧ 0x24 ≤ 0x64 - 64)
    ∧ (idlePair.copyAt 0x7C = some (1, copyWith 64 0x1000 3 0x2000 4 0) ∧ (0x7C - 64) % 4 = 0 ∧ 0x24 ≤ 0x7C - 64)
    ∧ (idlePair.copyAt 0x44 = some (1, copyWith 64 0x1000 3 0x2000 4 0) ∧ 0x44 - 64 = 0x04)
    ∧ (idlePair.copyAt 0x5C = some (1, copyWith 64 0x1000 3 0x2000 4 0) ∧ 0x5C - 64 = 0x1C)
    ∧ (idlePair.copyAt 0x60 = some (1, copyWith 64 0x1000 3 0x2000 4 0) ∧ 0x60 - 64 = 0x20)
    ∧ (busyPair.copyAt 0x48 = some (1, (copyWith 64 0x1000 3 0x2000 4 0).accept 0x04) ∧ (0x48 - 64) % 4 = 0) :=
  ⟨⟨rfl, rfl, by decide⟩, ⟨rfl, rfl, by decide⟩, ⟨rfl, rfl⟩, ⟨rfl, rfl⟩, ⟨rfl, rfl⟩, ⟨rfl, rfl⟩⟩

/-- Each of the five operand registers. -/
theorem witness_OperandWritesStore :
    (copyWith 64 0x1000 3 0x2000 4 0).status.busy = false
    ∧ ∀ off ∈ [0x08, 0x0C, 0x10, 0x14, 0x18],
      idlePair.copyAt ((copyWith 64 0x1000 3 0x2000 4 0).regBase + off) = some (1, copyWith 64 0x1000 3 0x2000 4 0) := by
  refine ⟨rfl, fun off h => ?_⟩
  simp only [List.mem_cons, List.not_mem_nil, or_false] at h
  rcases h with rfl | rfl | rfl | rfl | rfl <;> rfl

/-- Each register with its value, and both ends of the reserved offsets. -/
theorem witness_RegisterReadsReturn :
    (∀ r ∈ [Reg.src, .slen, .dst, .dcap, .din, .dout, .rlen], (copyWith 64 0x1000 3 0x2000 4 0).hasValue r = true)
    ∧ ∀ off ∈ [0x00, 0x04, 0x08, 0x0C, 0x10, 0x14, 0x18, 0x1C, 0x20, 0x24, 0x3C],
      idlePair.copyAt ((copyWith 64 0x1000 3 0x2000 4 0).regBase + off) = some (1, copyWith 64 0x1000 3 0x2000 4 0) := by
  refine ⟨by decide, fun off h => ?_⟩
  simp only [List.mem_cons, List.not_mem_nil, or_false] at h
  rcases h with rfl | rfl | rfl | rfl | rfl | rfl | rfl | rfl | rfl | rfl | rfl <;> rfl

/-- After reset each of the seven registers has no value. -/
theorem witness_UnwrittenRegisterReadsFreeValue :
    State.reset.params.Legal ∧ State.reset.blk.written = Written.nothing
    ∧ ∀ off ∈ [0x08, 0x0C, 0x10, 0x14, 0x18, 0x1C, 0x20],
      State.reset.copyAt (State.reset.blk.regBase + off) = some (0, State.reset.blk) := by
  refine ⟨paramsLegal_default, rfl, fun off h => ?_⟩
  simp only [List.mem_cons, List.not_mem_nil, or_false] at h
  rcases h with rfl | rfl | rfl | rfl | rfl | rfl | rfl <;> rfl

/-- The smallest widths that R8 allows are legal, and a write then keeps one and three bits (R20, R21). -/
theorem witness_narrowest_parameters :
    let s : State := { State.reset with params := { Params.default with addrW := 1, lenW := 3 } }
    s.params.Legal
    ∧ (match s.busWrite 0x08 32 0xFFFFFFFF with | .next t => some t.blk.src | .fault _ => none | .refused _ => none) = some 1
    ∧ (match s.busWrite 0x0C 32 0xFFFFFFFF with | .next t => some t.blk.slen | .fault _ => none | .refused _ => none) = some 7 :=
  ⟨⟨by decide, by decide, by decide, by decide, alphabetLegal_standard⟩, by decide, by decide⟩

theorem witness_ImproperAccessesRefused :
    idlePair.copyAt 0x40 = some (1, copyWith 64 0x1000 3 0x2000 4 0) ∧ (16 ≠ 32 ∨ (0x40 - 64) % 4 ≠ 0)
      ∧ idlePair.copyAt 0x7F = some (1, copyWith 64 0x1000 3 0x2000 4 0) ∧ (32 ≠ 32 ∨ (0x7F - 64) % 4 ≠ 0) :=
  ⟨rfl, by decide, rfl, by decide⟩

theorem witness_WindowSelectsCopy :
    idlePair.Inv ∧ idlePair.copy 1 = some (copyWith 64 0x1000 3 0x2000 4 0) ∧ 63 < 64 :=
  ⟨pair_inv _ (copyWith_inv rfl _ _ _ _ _) (copyWith_inv rfl _ _ _ _ _) (by decide), rfl, by decide⟩

/-- The last byte of the running copy's destination region, the byte above it, and the top of memory. -/
theorem witness_HostMemoryAccesses :
    (∃ b ∈ busyPair.blk :: busyPair.others, b.status.busy = true ∧ (b.srcRegion.contains 0x2003 = true ∨ b.dstRegion.contains 0x2003 = true))
    ∧ (∀ b ∈ busyPair.blk :: busyPair.others, b.status.busy = true → b.srcRegion.contains 0x2004 = false ∧ b.dstRegion.contains 0x2004 = false)
    ∧ (∃ b ∈ busyPair.blk :: busyPair.others, b.status.busy = true ∧ b.dstRegion.contains 0x2003 = true)
    ∧ (∀ b ∈ busyPair.blk :: busyPair.others, b.status.busy = true → b.dstRegion.contains 0x1000 = false)
    ∧ 0xFFFFFFFF < 2 ^ busyPair.params.addrW := by
  have hm : (copyWith 64 0x1000 3 0x2000 4 0).accept 0x04 ∈ busyPair.blk :: busyPair.others :=
    List.mem_cons_of_mem _ (List.mem_singleton.2 rfl)
  refine ⟨⟨_, hm, rfl, .inr rfl⟩, fun b hb _ => ?_, ⟨_, hm, rfl, rfl⟩, fun b hb _ => ?_, by decide⟩ <;>
  · simp only [busyPair, pair, platform, List.mem_cons, List.not_mem_nil, or_false] at hb
    rcases hb with rfl | rfl <;> decide

theorem witness_ResetInputRestores :
    (idlePair.copy 1 = some (copyWith 64 0x1000 3 0x2000 4 0) ∧ (copyWith 64 0x1000 3 0x2000 4 0).status.busy = false)
    ∧ (busyPair.copy 1 = some ((copyWith 64 0x1000 3 0x2000 4 0).accept 0x04)
      ∧ ((copyWith 64 0x1000 3 0x2000 4 0).accept 0x04).status.busy = true) := ⟨⟨rfl, rfl⟩, rfl, rfl⟩

theorem witness_PlacedWordRunsNext : State.reset.others = [] := rfl

theorem witness_IssueAndWait :
    let s := platform (copyWith 0 0 0 0 0 0x13) [] [] [.busWrite 0 32 0x01, .wait 0]
    s.others = [] ∧ s.blk.status.busy = false ∧ s.program = [.busWrite s.blk.regBase 32 0x01, .wait 0]
      ∧ ∃ u, exec (decodeWord 0x01) { s with blk := s.blk.accept 0x01, program := [.wait 0] } = .next u :=
  ⟨rfl, rfl, rfl, _, rfl⟩

theorem witness_StepKeepsInvariant :
    let s := pair (copyWith 0 0 0 0 0 0) ((copyWith 64 0x1000 3 0x2000 4 0).accept 0x04) [.wait 1]
    s.Inv ∧ ∃ t, step s = .next t :=
  ⟨pair_inv _ (copyWith_inv rfl _ _ _ _ _) (accept_inv (copyWith_inv rfl _ _ _ _ _) _) (by decide), _, rfl⟩

end Sys2Proof.Tests
end

section
/-! The machine's step: everything it can do, said once, and the invariant that every step keeps (10_state.md sections 3 to 5,
20_memory.md section 1, 60_exceptions.md section 6). -/

namespace Sys2Proof.Machine

/-- Nothing but the program says what the host and the engines do next: the copies are the same under every program. -/
@[simp] theorem State.copy_program (s : State) (p : List HostAction) (n : Nat) :
    ({ s with program := p } : State).copy n = s.copy n := by
  cases n <;> rfl

/-- Everything a step can do when it gives a next state: with an empty program nothing or a turn of an engine, else the moves
of the first action on the rest of the program. -/
theorem step_moves {s t : State} (h : step s = .next t) :
    (s.program = [] ∧ (t = s ∨ ∃ n, s.engineStep n = .next t)) ∨
    ∃ a rest, s.program = a :: rest ∧ ({ s with program := rest } : State).Moves a t := by
  unfold step at h
  split at h
  · next hp =>
    refine .inl ⟨hp, ?_⟩
    unfold State.idleStep at h
    split at h
    · exact .inr ⟨_, h⟩
    · cases h; exact .inl rfl
  · next a rest hp => exact .inr ⟨a, rest, hp, State.perform_moves h⟩

/-- A step that performs the action `a` is one of the moves of `a`. -/
theorem step_moves_of_cons {s t : State} {a : HostAction} {rest : List HostAction} (hp : s.program = a :: rest)
    (h : step s = .next t) : ({ s with program := rest } : State).Moves a t := by
  simp only [step, hp] at h
  exact State.perform_moves h

/-! ### The invariant -/

/-- What the end of a command does to memory: nothing, or `MemWrite` of its result to a destination with room for it. -/
theorem State.Ends.mem {s t : State} (h : s.Ends t) :
    t.mem = s.mem ∨
    ∃ out, t.mem = s.mem.writeBytes s.blk.dst.toNat out ∧ s.DstFits ∧ out.length ≤ s.blk.dcap.toNat := by
  cases h with
  | stored out hdst hcap _ => exact .inr ⟨out, rfl, hdst, hcap⟩
  | failed | wroteDout | wroteBoth | wroteRlen => exact .inl rfl

/-- The result of a command lies in the data memory: `MemWrite` to a region that fits lists no address above it (R31, R38). -/
theorem State.Inv.memIn_writeBytes {s : State} (hs : s.Inv) {out : List Byte} (hdst : s.DstFits)
    (hcap : out.length ≤ s.blk.dcap.toNat) :
    ∀ c ∈ (s.mem.writeBytes s.blk.dst.toNat out).cells, c.1 < 2 ^ s.params.addrW := by
  intro c hc
  unfold State.DstFits at hdst
  rcases Memory.mem_writeBytes hc with ⟨-, hlt⟩ | hc
  · omega
  · exact hs.memIn c hc

/-- The end of a command keeps the invariant. -/
theorem State.Inv.ends {s t : State} (hs : s.Inv) (h : s.Ends t) : t.Inv := by
  have ha := h.around
  have hblk : t.blk.Inv t.params := ha.params.symm ▸ h.blk_inv hs
  have hothers : ∀ b ∈ t.others, b.Inv t.params := by
    rw [ha.others, ha.params]; exact hs.others
  have hwindows : ((t.blk :: t.others).map Block.regBase).Nodup := by
    rw [List.map_cons, ha.others, ha.operands.regBase]; exact hs.windows
  have hmem : t.mem.wf ∧ ∀ c ∈ t.mem.cells, c.1 < 2 ^ s.params.addrW := by
    rcases h.mem with hm | ⟨out, hm, hdst, hcap⟩
    · rw [hm]; exact ⟨hs.memWf, hs.memIn⟩
    · rw [hm]; exact ⟨Memory.wf_writeBytes hs.memWf _ _, hs.memIn_writeBytes hdst hcap⟩
  exact ⟨ha.params.symm ▸ hs.legal, hblk, hothers, hmem.1, ha.params.symm ▸ hmem.2, hwindows⟩

/-- A turn of an engine keeps the invariant. -/
theorem State.Inv.engineStep {s t : State} (hs : s.Inv) {n : Nat} (h : s.engineStep n = .next t) : t.Inv := by
  obtain ⟨b, u, -, -, rfl, ⟨rfl, -⟩ | ⟨w, -, -, hexec⟩⟩ := State.engineStep_next h
  · exact (hs.focus n).focus n
  · exact ((hs.focus n).ends (exec_ends hexec)).focus n

/-- A host's write of a byte of the data memory keeps the invariant (R31). -/
theorem State.Inv.memWrite {s : State} (hs : s.Inv) {x : Nat} (hx : x < 2 ^ s.params.addrW) (v : Byte) :
    ({ s with mem := s.mem.write x v } : State).Inv := by
  refine ⟨hs.legal, hs.blk, hs.others, Memory.wf_write hs.memWf x v, fun c hc => ?_, hs.windows⟩
  rcases Memory.mem_write hc with hc | hc
  · exact hc.symm ▸ hx
  · exact hs.memIn c hc

/-- Every move of an action keeps the invariant. -/
theorem State.Inv.moves {s t : State} {a : HostAction} (hs : s.Inv) (h : s.Moves a t) : t.Inv := by
  cases h with
  | replied r d => exact hs.hostSide s.program r d
  | wroteByte x v _ hx => exact hs.memWrite hx v
  | wroteReg addr width n b v _ hat _ =>
    obtain ⟨hb, -, -⟩ := State.copyAt_some hat
    exact hs.setCopy hb ((hs.copy hb).writeOffset hs.legal _ v) (Block.writeOffset_regBase _ b _ v)
  | wasReset n b _ hb _ => exact hs.setCopy hb (Block.inv_afterReset s.params (hs.copy hb).base) rfl
  | engine n _ h => exact hs.engineStep h
  | waited n b _ _ _ h => exact (hs.hostSide _ s.reply s.draws).engineStep h

/-- Settles O57: the moves of a step, each of which keeps the invariant. -/
theorem stepKeepsInvariant : Obligations.StepKeepsInvariant := by
  intro s t hs h
  rcases step_moves h with ⟨-, rfl | ⟨n, hn⟩⟩ | ⟨a, rest, -, hmoves⟩
  · exact hs
  · exact hs.engineStep hn
  · exact (hs.hostSide rest s.reply s.draws).moves hmoves

/-- Settles O56: its one copy is a copy after reset, and its memory lists nothing. -/
theorem resetMeetsInvariant : Obligations.ResetMeetsInvariant :=
  ⟨paramsLegal_default, Block.inv_afterReset Params.default rfl, List.forall_mem_nil _, ⟨.nil, List.forall_mem_nil _⟩,
    List.forall_mem_nil _, List.nodup_singleton 0⟩

end Sys2Proof.Machine
end

section
/-! The end of a command: which errors it can take (60_exceptions.md R100), what it leaves alone, and which registers its
outcome comes from (30_encoding.md R51). -/

namespace Sys2Proof.Machine

/-! ### Errors -/

/-- A command that has ended runs no longer (R25). -/
theorem State.Ends.not_busy {s t : State} (h : s.Ends t) : t.blk.status.busy = false ∧ t.blk.pending = none := by
  cases h <;> exact ⟨rfl, rfl⟩

/-- The errors of `ENCODE` (R74). -/
theorem State.encodeOutput_error {s : State} {e : ErrorKind} (h : s.encodeOutput = .error e) :
    e = .capacity ∨ e = .range := by
  unfold State.encodeOutput at h
  split at h
  · cases h; exact .inr rfl
  · split at h
    · cases h; exact .inl rfl
    · cases h

/-- The errors of decoding group by group (R81, R83). -/
theorem decodeGroups_error {t : InverseTable} {text : List Byte} {e : ErrorKind} (h : decodeGroups t text = .error e) :
    e = .length ∨ e = .decode := by
  induction text using text_induction with
  | empty => cases h
  | short text h0 h4 =>
    rw [decodeGroups_short t h0 h4] at h
    cases h
    exact .inl rfl
  | group c0 c1 c2 c3 rest ih =>
    simp only [decodeGroups] at h
    split at h
    · next hg => cases h; exact .inr (decGroup_error hg)
    · split at h
      · next hrest => cases h; exact ih hrest
      · cases h

/-- The errors of `decode(t)` (R84). -/
theorem decodeBytes_error {t : InverseTable} {text : List Byte} {e : ErrorKind} (h : decodeBytes t text = .error e) :
    e = .length ∨ e = .decode := by
  unfold decodeBytes at h
  split at h
  · cases h; exact .inl rfl
  · exact decodeGroups_error h

/-- The errors of `DECODE` (R88): every kind but `IllegalCommand`. -/
theorem State.decodeOutput_error {s : State} {e : ErrorKind} (h : s.decodeOutput = .error e) :
    e = .capacity ∨ e = .length ∨ e = .decode ∨ e = .range := by
  unfold State.decodeOutput at h
  split at h
  · cases h; simp
  · split at h
    · next he =>
      cases h
      rcases decodeBytes_error he with rfl | rfl <;> simp
    · split at h
      · cases h; simp
      · cases h

theorem execEncode_err {s t : State} (h : execEncode s = .next t) : t.blk.status.err ∈ [0, 1, 5] := by
  unfold execEncode at h
  split at h
  · next he =>
    cases h
    rcases State.encodeOutput_error he with rfl | rfl <;> simp [ErrorKind.code]
  · split at h
    · cases h
    · cases h; simp

theorem execDecode_err {s t : State} (h : execDecode s = .next t) : t.blk.status.err ∈ [0, 1, 2, 3, 5] := by
  unfold execDecode at h
  split at h
  · next he =>
    cases h
    rcases State.decodeOutput_error he with rfl | rfl | rfl | rfl <;> simp [ErrorKind.code]
  · split at h
    · cases h
    · cases h; simp

/-- The errors of both words of `DECBLK` (R86). -/
theorem State.decodeGroup_err (s : State) (final : Bool) : (s.decodeGroup final).blk.status.err ∈ [0, 3] := by
  unfold State.decodeGroup
  split
  · next he => cases decGroup_error he; simp [ErrorKind.code]
  · simp

theorem execEnclen_err {s t : State} (h : execEnclen s = .next t) : t.blk.status.err ∈ [0, 5] := by
  unfold execEnclen at h
  split at h
  · cases h; simp [ErrorKind.code]
  · cases h; simp

theorem execDeclen_err {s t : State} (h : execDeclen s = .next t) : t.blk.status.err ∈ [0, 2, 5] := by
  unfold execDeclen at h
  split at h
  · cases h; simp [ErrorKind.code]
  · split at h
    · cases h; simp [ErrorKind.code]
    · split at h <;> (cases h; simp)

/-- Settles O27: every end of a command leaves `BUSY` 0 and nothing pending, and the errors are those of each command's own
checks. -/
theorem everyCommandEnds : Obligations.EveryCommandEnds := by
  intro i s t h
  obtain ⟨hbusy, hpending⟩ := (exec_ends h).not_busy
  refine ⟨hbusy, hpending, ?_⟩
  cases i with
  | alut | ilut | encblk1 | encblk2 | encblk3 => cases h; rfl
  | encode => exact execEncode_err h
  | decblk0 => cases h; exact s.decodeGroup_err false
  | decblk1 => cases h; exact s.decodeGroup_err true
  | decode => exact execDecode_err h
  | enclen => exact execEnclen_err h
  | declen => exact execDeclen_err h
  | illegal w => cases h; rfl

/-- Settles O29: none of the ends of a command writes anything around it. -/
theorem commandsKeepOperands : Obligations.CommandsKeepOperands :=
  fun _ _ _ h => (exec_ends h).around

/-! ### Where the outcome comes from -/

/-- Two runs of one command, from `s` to `t` and from `s'` to `u`, that end alike: with the same error, or with the same
results. -/
inductive State.EndAlike (s s' : State) : State → State → Prop where
  | failed (e : ErrorKind) : s.EndAlike s' (s.raiseError e) (s'.raiseError e)
  | wroteDout (v : Word) : s.EndAlike s' (s.setDout v).complete (s'.setDout v).complete
  | wroteBoth (v : Word) (m : Nat) :
      s.EndAlike s' ((s.setDout v).setRlen m).complete ((s'.setDout v).setRlen m).complete
  | wroteRlen (m : Nat) : s.EndAlike s' (s.setRlen m).complete (s'.setRlen m).complete
  | stored (out : List Byte) (m : Nat) (hdst : s'.blk.dst = s.blk.dst) :
      s.EndAlike s' ((s.storeResult out).setRlen m).complete ((s'.storeResult out).setRlen m).complete

section
variable {s t u : State} {c : Block}

/-- Runs on one memory that end alike leave one memory. -/
theorem State.EndAlike.mem (h : s.EndAlike { s with blk := c } t u) : u.mem = t.mem := by
  cases h with
  | stored out m hdst => exact congrArg (fun d : Word => s.mem.writeBytes d.toNat out) hdst
  | failed | wroteDout | wroteBoth | wroteRlen => rfl

theorem State.EndAlike.status (h : s.EndAlike { s with blk := c } t u) : u.blk.status = t.blk.status := by
  cases h <;> rfl

/-- `DOUT` is written alike, or left alone in both runs. -/
theorem State.EndAlike.dout (h : s.EndAlike { s with blk := c } t u) :
    u.blk.dout = t.blk.dout ∨ (u.blk.dout = c.dout ∧ t.blk.dout = s.blk.dout) := by
  cases h with
  | wroteDout | wroteBoth => exact .inl rfl
  | failed | wroteRlen | stored => exact .inr ⟨rfl, rfl⟩

/-- `RLEN` is written alike, or left alone in both runs. -/
theorem State.EndAlike.rlen (h : s.EndAlike { s with blk := c } t u) :
    u.blk.rlen = t.blk.rlen ∨ (u.blk.rlen = c.rlen ∧ t.blk.rlen = s.blk.rlen) := by
  cases h with
  | wroteBoth | wroteRlen | stored => exact .inl rfl
  | failed | wroteDout => exact .inr ⟨rfl, rfl⟩

end

/-- Two copies agree on the four registers that say where the regions are (R20, R21). -/
structure Block.SameRegions (b c : Block) : Prop where
  src : c.src = b.src
  slen : c.slen = b.slen
  dst : c.dst = b.dst
  dcap : c.dcap = b.dcap

/-- Copies that agree on the operands of `ENCODE` and `DECODE` have the same regions. -/
theorem Block.SameRegions.of_operands {b c : Block}
    (h : ∀ r ∈ [Reg.src, .slen, .dst, .dcap], c.regValue r = b.regValue r) : b.SameRegions c :=
  ⟨h .src (by simp), h .slen (by simp), h .dst (by simp), h .dcap (by simp)⟩

section
variable {s : State} {c : Block} (hsrc : c.src = s.blk.src) (hslen : c.slen = s.blk.slen)
include hsrc hslen

theorem State.srcOk_congr : ({ s with blk := c } : State).srcOk = s.srcOk := by
  simp only [State.srcOk, Block.srcRegion, hsrc, hslen]

theorem State.sourceBytes_congr : ({ s with blk := c } : State).sourceBytes = s.sourceBytes := by
  simp only [State.sourceBytes, hsrc, hslen]

end

section
variable {s : State} {c : Block} (h : s.blk.SameRegions c)
include h

theorem Block.SameRegions.srcRegion : c.srcRegion = s.blk.srcRegion := by
  simp only [Block.srcRegion, h.src, h.slen]

theorem Block.SameRegions.dstRegion : c.dstRegion = s.blk.dstRegion := by
  simp only [Block.dstRegion, h.dst, h.dcap]

theorem State.dstOk_congr : ({ s with blk := c } : State).dstOk = s.dstOk := by
  simp only [State.dstOk, h.dstRegion]

/-- The checks and the bytes of `ENCODE` come from the regions and the alphabet table. -/
theorem State.encodeOutput_congr (ha : c.alphabetLut = s.blk.alphabetLut) :
    ({ s with blk := c } : State).encodeOutput = s.encodeOutput := by
  simp only [State.encodeOutput, State.srcOk_congr h.src h.slen, State.dstOk_congr h,
    State.sourceBytes_congr h.src h.slen, h.slen, h.dcap, ha]

/-- The checks and the bytes of `DECODE` come from the regions and the inverse table. -/
theorem State.decodeOutput_congr (hi : c.inverseLut = s.blk.inverseLut) :
    ({ s with blk := c } : State).decodeOutput = s.decodeOutput := by
  simp only [State.decodeOutput, State.srcOk_congr h.src h.slen, State.dstOk_congr h,
    State.sourceBytes_congr h.src h.slen, h.dcap, hi]

theorem execEncode_congr {t : State} (ha : c.alphabetLut = s.blk.alphabetLut) (ht : execEncode s = .next t) :
    ∃ u, execEncode { s with blk := c } = .next u ∧ s.EndAlike { s with blk := c } t u := by
  simp only [execEncode, State.encodeOutput_congr h ha, h.srcRegion, h.dstRegion, h.slen] at ht ⊢
  cases hout : s.encodeOutput with
  | error e => simp only [hout] at ht ⊢; cases ht; exact ⟨_, rfl, .failed e⟩
  | ok out =>
    simp only [hout] at ht ⊢
    split at ht
    · cases ht
    · next hov => cases ht; rw [if_neg hov]; exact ⟨_, rfl, .stored out _ h.dst⟩

theorem execDecode_congr {t : State} (hi : c.inverseLut = s.blk.inverseLut) (ht : execDecode s = .next t) :
    ∃ u, execDecode { s with blk := c } = .next u ∧ s.EndAlike { s with blk := c } t u := by
  simp only [execDecode, State.decodeOutput_congr h hi, h.srcRegion, h.dstRegion] at ht ⊢
  cases hout : s.decodeOutput with
  | error e => simp only [hout] at ht ⊢; cases ht; exact ⟨_, rfl, .failed e⟩
  | ok out =>
    simp only [hout] at ht ⊢
    split at ht
    · cases ht
    · next hov => cases ht; rw [if_neg hov]; exact ⟨_, rfl, .stored out _ h.dst⟩

end

section
variable {s : State} {c : Block}

/-- `DECBLK` reads `DIN` and the inverse table alone (R86). -/
theorem State.decodeGroup_congr (hdin : c.din = s.blk.din) (hi : c.inverseLut = s.blk.inverseLut) (final : Bool) :
    s.EndAlike { s with blk := c } (s.decodeGroup final) (({ s with blk := c } : State).decodeGroup final) := by
  simp only [State.decodeGroup, hdin, hi]
  split
  · exact .failed _
  · exact .wroteBoth _ _

/-- `ENCBLK` reads `DIN` and the alphabet table alone (R72). -/
theorem State.encodeGroup_congr (hdin : c.din = s.blk.din) (ha : c.alphabetLut = s.blk.alphabetLut) (k : Nat) :
    s.EndAlike { s with blk := c } (s.encodeGroup k) (({ s with blk := c } : State).encodeGroup k) := by
  simp only [State.encodeGroup, hdin, ha]
  exact .wroteBoth _ _

theorem execEnclen_congr {t : State} (hslen : c.slen = s.blk.slen) (ht : execEnclen s = .next t) :
    ∃ u, execEnclen { s with blk := c } = .next u ∧ s.EndAlike { s with blk := c } t u := by
  simp only [execEnclen, hslen] at ht ⊢
  split at ht
  · next hlong => cases ht; rw [if_pos hlong]; exact ⟨_, rfl, .failed _⟩
  · next hlong => cases ht; rw [if_neg hlong]; exact ⟨_, rfl, .wroteRlen _⟩

theorem execDeclen_congr {t : State} (hsrc : c.src = s.blk.src) (hslen : c.slen = s.blk.slen)
    (ht : execDeclen s = .next t) :
    ∃ u, execDeclen { s with blk := c } = .next u ∧ s.EndAlike { s with blk := c } t u := by
  simp only [execDeclen, State.srcOk_congr hsrc hslen, hsrc, hslen] at ht ⊢
  split at ht
  · next hrange => cases ht; rw [if_pos hrange]; exact ⟨_, rfl, .failed _⟩
  · next hrange =>
    rw [if_neg hrange]
    split at ht
    · next hlen => cases ht; rw [if_pos hlen]; exact ⟨_, rfl, .failed _⟩
    · next hlen =>
      rw [if_neg hlen]
      split at ht
      · next hzero => cases ht; rw [if_pos hzero]; exact ⟨_, rfl, .wroteRlen _⟩
      · next hzero => cases ht; rw [if_neg hzero]; exact ⟨_, rfl, .wroteRlen _⟩

/-- A command's outcome comes from its operand registers, the tables, the parameters and memory (R51): on another copy that
holds the same in them it ends alike. -/
theorem exec_congr {i : Instr} {t : State} (h : ∀ r ∈ operandRegs i, c.regValue r = s.blk.regValue r)
    (ha : c.alphabetLut = s.blk.alphabetLut) (hi : c.inverseLut = s.blk.inverseLut) (ht : exec i s = .next t) :
    ∃ u, exec i { s with blk := c } = .next u ∧ s.EndAlike { s with blk := c } t u := by
  cases i with
  | alut =>
    have hdin : c.din = s.blk.din := h .din (by simp [operandRegs])
    cases ht
    simp only [exec, execAlut, hdin, ha]
    exact ⟨_, rfl, .wroteDout _⟩
  | ilut =>
    have hdin : c.din = s.blk.din := h .din (by simp [operandRegs])
    cases ht
    simp only [exec, execIlut, hdin, hi]
    exact ⟨_, rfl, .wroteDout _⟩
  | encblk1 => cases ht; exact ⟨_, rfl, State.encodeGroup_congr (h .din (by simp [operandRegs])) ha 1⟩
  | encblk2 => cases ht; exact ⟨_, rfl, State.encodeGroup_congr (h .din (by simp [operandRegs])) ha 2⟩
  | encblk3 => cases ht; exact ⟨_, rfl, State.encodeGroup_congr (h .din (by simp [operandRegs])) ha 3⟩
  | encode => exact execEncode_congr (.of_operands h) ha ht
  | decblk0 => cases ht; exact ⟨_, rfl, State.decodeGroup_congr (h .din (by simp [operandRegs])) hi false⟩
  | decblk1 => cases ht; exact ⟨_, rfl, State.decodeGroup_congr (h .din (by simp [operandRegs])) hi true⟩
  | decode => exact execDecode_congr (.of_operands h) hi ht
  | enclen => exact execEnclen_congr (h .slen (by simp [operandRegs])) ht
  | declen => exact execDeclen_congr (h .src (by simp [operandRegs])) (h .slen (by simp [operandRegs])) ht
  | illegal w => cases ht; exact ⟨_, rfl, .failed _⟩

end

end Sys2Proof.Machine
end

section
/-! Turns of the engines and moves of the program, copy by copy: what each can change, and what decides it (10_state.md sections
4 and 6, 70_reset_and_hazards.md sections 2 and 3). -/

namespace Sys2Proof.Machine

/-! ### The engine's turn -/

/-- The engine runs the pending word where no other running copy is in the way (R25, R112). -/
theorem State.engineOfBlk_run {s : State} {w : Word} (hbusy : s.blk.status.busy = true) (hp : s.blk.pending = some w)
    (hc : s.others.any (s.copiesConflict s.blk) = false) : s.engineOfBlk = exec (decodeWord w) s := by
  simp only [State.engineOfBlk, hbusy, hp, hc, Bool.false_eq_true, if_false]

/-- The engine's step is enabled only by a running command (R25). -/
theorem State.engineOfBlk_idle {s : State} (h : s.blk.status.busy = false ∨ s.blk.pending = none) :
    s.engineOfBlk = .next s := by
  unfold State.engineOfBlk
  split
  · next hbusy hp => simp [hbusy, hp] at h
  · rfl

/-- Copy 0 is in focus already. -/
@[simp] theorem State.engineStep_zero (s : State) : s.engineStep 0 = s.engineOfBlk := by
  simp only [State.engineStep, State.copy_zero, State.focus_zero]
  cases s.engineOfBlk <;> rfl

/-- Settles O35: copy 0 is in focus already, so its engine's turn is the execution of its pending word. -/
theorem stepRunsPendingCommand : Obligations.StepRunsPendingCommand := by
  intro s w rest hprog hbusy hp hc
  simp only [step, hprog, State.perform, State.engineStep_zero]
  exact State.engineOfBlk_run (s := { s with program := rest }) hbusy hp hc

/-- Settles O37: the copy is brought into focus, nothing moves, and it is put back. -/
theorem idleEngineDoesNothing : Obligations.IdleEngineDoesNothing := by
  intro s n b hb hidle
  have hturn : (s.focus n).engineOfBlk = .next (s.focus n) :=
    State.engineOfBlk_idle (.inl ((State.focus_blk hb).symm ▸ hidle))
  simp only [State.engineStep, hb, hturn, onNext, State.focus_focus]

/-- Settles O54: `withFetchWord` leaves a pending word, and with one copy there is no conflict. -/
theorem placedWordRunsNext : Obligations.PlacedWordRunsNext := by
  intro s w hothers
  have hword : BitVec.ofNat 32 (w % 2 ^ 32) = BitVec.ofNat 32 w := by
    apply BitVec.eq_of_toNat_eq
    simp
  have hrun := stepRunsPendingCommand (s.withFetchWord 32 w) (BitVec.ofNat 32 (w % 2 ^ 32)) s.program rfl rfl rfl
    (by simp [State.withFetchWord, hothers])
  rw [hrun, State.withFetchWord, hword]

/-! ### What becomes of one copy -/

/-- The copy `b` ends a command as the copy `c`. -/
def Block.EndsAs (b c : Block) : Prop := ∃ s t : State, s.Ends t ∧ s.blk = b ∧ t.blk = c

/-- What a turn of the engine of copy `m` makes of copy `n`: it is as before, or the turn is its own and ended its command. -/
theorem State.engineStep_copy {s t : State} {m n : Nat} {b : Block} (h : s.engineStep m = .next t)
    (hb : s.copy n = some b) : ∃ c, t.copy n = some c ∧ (c = b ∨ (n = m ∧ b.EndsAs c)) := by
  obtain ⟨b', u, hb', hf, rfl, ⟨rfl, -⟩ | ⟨w, -, -, hexec⟩⟩ := State.engineStep_next h
  · exact ⟨b, (State.focus_focus s m).symm ▸ hb, .inl rfl⟩
  · have hends := exec_ends hexec
    rw [State.copy_focus_back hb' hends.around.others]
    split
    · next hn =>
      subst hn
      exact ⟨u.blk, rfl, .inr ⟨rfl, _, u, hends, hf.trans (Option.some.inj (hb'.symm.trans hb)), rfl⟩⟩
    · exact ⟨b, hb, .inl rfl⟩

/-- What the action `a` can make of copy `n`, which is `b` before it. -/
inductive HostAction.Makes (p : Params) (a : HostAction) (n : Nat) (b : Block) : Block → Prop where
  | kept : a.Makes p n b b
  | wrote (off : Nat) (v : Word) : a.Makes p n b (b.writeOffset p off v)
  | wasReset (ha : a = .reset n) (hidle : b.status.busy = false) : a.Makes p n b (Block.afterReset p b.regBase)
  | ended {c : Block} (ha : a = .engine n ∨ a = .wait n) (h : b.EndsAs c) : a.Makes p n b c

/-- Replacing copy `m` by `c` makes something of copy `n` that `a` can make, when `c` is such for `n = m`. -/
theorem State.setCopy_makes {s : State} {a : HostAction} {m n : Nat} {b b' c : Block} (hb' : s.copy m = some b')
    (hb : s.copy n = some b) (h : a.Makes s.params m b' c) :
    ∃ d, (s.setCopy m c).copy n = some d ∧ a.Makes s.params n b d := by
  rw [State.setCopy_copy hb']
  split
  · next hn =>
    subst hn
    cases hb'.symm.trans hb
    exact ⟨c, rfl, h⟩
  · exact ⟨b, hb, .kept⟩

/-- A turn of the engine of copy `m`, taken by an action on copy `m`, makes of each copy something that the action can make. -/
theorem State.engineStep_makes {s t : State} {a : HostAction} {m n : Nat} {b : Block} (h : s.engineStep m = .next t)
    (ha : a = .engine m ∨ a = .wait m) (hb : s.copy n = some b) :
    ∃ c, t.copy n = some c ∧ a.Makes s.params n b c := by
  obtain ⟨c, hc, rfl | ⟨rfl, hends⟩⟩ := State.engineStep_copy h hb
  · exact ⟨c, hc, .kept⟩
  · exact ⟨c, hc, .ended ha hends⟩

/-- The moves of an action, seen from one copy. -/
theorem State.Moves.makes {s t : State} {a : HostAction} {n : Nat} {b : Block} (h : s.Moves a t)
    (hb : s.copy n = some b) : ∃ c, t.copy n = some c ∧ a.Makes s.params n b c := by
  cases h with
  | replied r d => exact ⟨b, by cases n <;> exact hb, .kept⟩
  | wroteByte x v _ _ => exact ⟨b, by cases n <;> exact hb, .kept⟩
  | wroteReg addr width m b' v _ hat _ =>
    exact State.setCopy_makes (State.copyAt_some hat).1 hb (.wrote _ v)
  | wasReset m b' ha hb' hidle => exact State.setCopy_makes hb' hb (.wasReset ha hidle)
  | engine m ha h => exact State.engineStep_makes h (.inl ha) hb
  | waited m b' ha _ _ h =>
    exact State.engineStep_makes (s := { s with program := .wait m :: s.program }) h (.inr ha)
      ((s.copy_program _ n).trans hb)

/-- Settles O39: of the things an action can make of a copy, a register write is dropped while it runs, a reset needs it idle,
and the end of its command is a turn of its own engine. -/
theorem runningCopyIsStable : Obligations.RunningCopyIsStable := by
  intro s t n b a rest hprog hengine hwait hb hbusy h
  obtain ⟨c, hc, hmakes⟩ := (step_moves_of_cons hprog h).makes ((s.copy_program rest n).trans hb)
  cases hmakes with
  | kept => exact hc
  | wrote off v => rwa [Block.writeOffset_busy hbusy] at hc
  | wasReset _ hidle => exact absurd hbusy (by simp [hidle])
  | ended ha _ => exact absurd ha (not_or.2 ⟨hengine, hwait⟩)

/-- Settles O40: the moves of a read and of a memory access are a reply and a byte written. -/
theorem readsAndMemoryAccessesKeepRegisters : Obligations.ReadsAndMemoryAccessesKeepRegisters := by
  intro s t a rest hprog ha h
  cases step_moves_of_cons hprog h with
  | replied r d => exact ⟨rfl, rfl, rfl, rfl, .inr rfl⟩
  | wroteByte x v hw _ =>
    exact ⟨rfl, rfl, rfl, rfl, .inl ⟨x, v, hw, Memory.read_write_same s.mem x v,
      fun y hy => Memory.read_write_other s.mem v hy⟩⟩
  | wroteReg | wasReset | engine | waited => subst_vars; simp at ha

/-! ### Registers that have a value -/

/-- Every register that has a value in `b` has one in `c`. -/
def Block.KeepsValues (b c : Block) : Prop := ∀ r, b.hasValue r = true → c.hasValue r = true

theorem Block.KeepsValues.trans {b c d : Block} (h : b.KeepsValues c) (h' : c.KeepsValues d) : b.KeepsValues d :=
  fun r hr => h' r (h r hr)

theorem State.setDout_keepsValues (s : State) (v : Word) : s.blk.KeepsValues (s.setDout v).blk := by
  intro r hr
  cases r with
  | dout => rfl
  | _ => exact hr

theorem State.setRlen_keepsValues (s : State) (m : Nat) : s.blk.KeepsValues (s.setRlen m).blk := by
  intro r hr
  cases r with
  | rlen => rfl
  | _ => exact hr

/-- The end of a command takes no value away (R25). -/
theorem State.Ends.keepsValues {s t : State} (h : s.Ends t) : s.blk.KeepsValues t.blk := by
  cases h with
  | failed e => exact fun _ hr => hr
  | wroteDout v => exact s.setDout_keepsValues v
  | wroteBoth v m _ => exact (s.setDout_keepsValues v).trans ((s.setDout v).setRlen_keepsValues m)
  | wroteRlen m => exact s.setRlen_keepsValues m
  | stored out _ _ _ => exact s.setRlen_keepsValues out.length

/-- A register write takes no value away (R17, R20 to R22). -/
theorem Block.writeOffset_keepsValues (p : Params) (b : Block) (off : Nat) (v : Word) :
    b.KeepsValues (b.writeOffset p off v) := by
  intro q hq
  unfold Block.writeOffset
  split
  · exact hq
  · split
    · exact hq
    · next r _ =>
      cases r with
      | cmd | status | dout | rlen => exact hq
      | src => cases q with
        | src => rfl
        | _ => exact hq
      | slen => cases q with
        | slen => rfl
        | _ => exact hq
      | dst => cases q with
        | dst => rfl
        | _ => exact hq
      | dcap => cases q with
        | dcap => rfl
        | _ => exact hq
      | din => cases q with
        | din => rfl
        | _ => exact hq

theorem Block.EndsAs.keepsValues {b c : Block} (h : b.EndsAs c) : b.KeepsValues c := by
  obtain ⟨s, t, hends, rfl, rfl⟩ := h
  exact hends.keepsValues

/-- Only a copy's reset takes values away from it (R29, R113). -/
theorem HostAction.Makes.keepsValues {p : Params} {a : HostAction} {n : Nat} {b c : Block} (h : a.Makes p n b c)
    (ha : a ≠ .reset n) : b.KeepsValues c := by
  cases h with
  | kept => exact fun _ hr => hr
  | wrote off v => exact b.writeOffset_keepsValues p off v
  | wasReset ha' _ => exact absurd ha' ha
  | ended _ hends => exact hends.keepsValues

/-- A step whose action is not the reset of copy `n` takes no value away from it. -/
theorem step_keepsValues {s t : State} {n : Nat} {b : Block} (h : step s = .next t) (hb : s.copy n = some b)
    (hreset : s.program.head? ≠ some (.reset n)) : ∃ c, t.copy n = some c ∧ b.KeepsValues c := by
  rcases step_moves h with ⟨-, rfl | ⟨m, hm⟩⟩ | ⟨a, rest, hprog, hmoves⟩
  · exact ⟨b, hb, fun _ hr => hr⟩
  · obtain ⟨c, hc, rfl | ⟨-, hends⟩⟩ := State.engineStep_copy hm hb
    · exact ⟨c, hc, fun _ hr => hr⟩
    · exact ⟨c, hc, hends.keepsValues⟩
  · obtain ⟨c, hc, hmakes⟩ := hmoves.makes ((s.copy_program rest n).trans hb)
    exact ⟨c, hc, hmakes.keepsValues (by simpa [hprog] using hreset)⟩

/-- Settles O58: no step but the reset of a copy takes a value away from its registers. -/
theorem operandsStayWritten : Obligations.OperandsStayWritten := by
  intro s t n b i hb hw hreset h
  obtain ⟨c, hc, hkeeps⟩ := step_keepsValues h hb hreset
  exact ⟨c, hc, fun r hr => hkeeps r (hw r hr)⟩

/-! ### Registers that have no value -/

/-- Where the engine of copy 0 has its turn by any of the three ways, the step is that turn, whatever the running copy 0
holds. -/
theorem step_of_engineTurn_zero {s : State} (h : s.engineTurn = some 0) :
    ∃ p, ∀ c : Block, c.status.busy = true →
      step { s with blk := c } = ({ s with blk := c, program := p } : State).engineOfBlk := by
  unfold State.engineTurn at h
  split at h
  · next hprog =>
    refine ⟨[], fun c hc => ?_⟩
    have hfirst : ({ s with blk := c } : State).firstBusy = some 0 := by simp [State.firstBusy, List.findIdx?_cons, hc]
    simp only [step, hprog, State.idleStep]
    rw [← hprog, hfirst, hprog]
    exact State.engineStep_zero _
  · next n rest hprog =>
    cases h
    refine ⟨rest, fun c _ => ?_⟩
    simp only [step, hprog, State.perform, State.engineStep_zero]
  · next n rest hprog =>
    cases h
    refine ⟨.wait 0 :: rest, fun c hc => ?_⟩
    simp only [step, hprog, State.perform, State.hostWait, State.copy_zero, hc, if_true, State.engineStep_zero]
  all_goals cases h

/-- Settles O59: the turn is that of copy 0's engine alone, the registers its command reads have a value and so agree, and the
command ends alike on both copies. -/
theorem engineTurnOnOneCopyIgnoresUnwrittenRegisters : Obligations.EngineTurnOnOneCopyIgnoresUnwrittenRegisters := by
  rintro s t c hothers ⟨-, hwritten⟩ hturn hbusy hagree hstatus hpending ha hi h
  obtain ⟨p, hstep⟩ := step_of_engineTurn_zero hturn
  have hbusy' : c.status.busy = true := hstatus ▸ hbusy
  have ht : ({ s with program := p } : State).engineOfBlk = .next t := (hstep s.blk hbusy).symm.trans h
  rw [hstep c hbusy']
  rcases State.engineOfBlk_next ht with ⟨rfl, hidle⟩ | ⟨w, -, hw, hexec⟩
  · have hidle' : c.status.busy = false ∨ c.pending = none := by rw [hstatus, hpending]; exact hidle
    exact ⟨_, State.engineOfBlk_idle hidle', rfl, rfl, hstatus, .inr ⟨rfl, rfl⟩, .inr ⟨rfl, rfl⟩⟩
  · have hoperands : s.blk.OperandsWritten (decodeWord w) := hwritten 0 s.blk w hturn rfl hw
    obtain ⟨u, hu, halike⟩ := exec_congr (s := { s with program := p }) (c := c)
      (fun r hr => hagree r (hoperands r hr)) ha hi hexec
    have hrun : ({ s with blk := c, program := p } : State).engineOfBlk = .next u :=
      (State.engineOfBlk_run hbusy' (hpending.trans hw) (by simp [hothers])).trans hu
    have hprogram : u.program = t.program :=
      (exec_ends hu).around.program.trans (exec_ends hexec).around.program.symm
    exact ⟨u, hrun, halike.mem, hprogram, halike.status, halike.dout, halike.rlen⟩

end Sys2Proof.Machine
end

section
/-! The register port: one rule for a write and one for a read at a register's offset (10_state.md sections 2, 3 and 6), and which
copy an address selects. -/

namespace Sys2Proof.Machine

/-! ### The register at an offset -/

@[simp] theorem Reg.atOffset_offset (r : Reg) : Reg.atOffset r.offset = some r := by cases r <;> rfl

theorem Reg.width_le {p : Params} (r : Reg) (hp : p.Legal) : r.width p ≤ 32 := by
  cases r with
  | src | dst => exact hp.addrMax
  | slen | dcap | rlen => exact hp.lenMax
  | cmd | status | din | dout => exact Nat.le_refl 32

theorem Reg.offset_mod_four (r : Reg) : r.offset % 4 = 0 := by cases r <;> rfl

/-- Every register of the map is at an offset that the port takes (R16, R17). -/
theorem Reg.aligned {b : Block} {addr : Nat} {r : Reg} (ha : addr = b.regBase + r.offset) :
    addr - b.regBase = r.offset ∧ (addr - b.regBase) % 4 = 0 := by
  rw [ha, Nat.add_sub_cancel_left]
  exact ⟨rfl, r.offset_mod_four⟩

section
variable {s : State} {addr n : Nat} {b : Block} (h : s.copyAt addr = some (n, b))
include h

/-- A write at a register of an idle copy stores in that register (R18, R20 to R22). -/
theorem State.busWrite_reg (hidle : b.status.busy = false) (r : Reg) (ha : addr = b.regBase + r.offset) (v : Word) :
    s.busWrite addr 32 v = .next (s.setCopy n (b.storeReg s.params r v)) := by
  obtain ⟨hoff, h4⟩ := Reg.aligned ha
  simp only [State.busWrite_eq h h4, Block.writeOffset, hidle, Bool.false_eq_true, if_false, hoff, Reg.atOffset_offset]

/-- A write that leaves the copy alone leaves the machine alone. -/
theorem State.busWrite_ineffective (h4 : (addr - b.regBase) % 4 = 0) {v : Word}
    (hb : b.writeOffset s.params (addr - b.regBase) v = b) : s.busWrite addr 32 v = .next s := by
  rw [State.busWrite_eq h h4, hb, State.setCopy_same (State.copyAt_some h).1]

/-- A read at a register that has a value returns it, and draws nothing (R17). -/
theorem State.busRead_reg (r : Reg) (ha : addr = b.regBase + r.offset) (hv : b.hasValue r = true) :
    s.busRead addr 32 = .next { s with reply := .word (b.regValue r) } := by
  obtain ⟨hoff, h4⟩ := Reg.aligned ha
  simp [State.busRead_eq h h4, Block.readOffset, Block.readsDraw, hoff, hv]

/-- A read at a register that has no value returns some value of its width, and draws (R29). -/
theorem State.busRead_unwritten (hp : s.params.Legal) (r : Reg) (ha : addr = b.regBase + r.offset)
    (hv : b.hasValue r = false) :
    (b.readOffset s.params (addr - b.regBase) (Config.freeWord s.draws)).toNat < 2 ^ r.width s.params
    ∧ s.busRead addr 32 = .next { s with
        reply := .word (b.readOffset s.params (addr - b.regBase) (Config.freeWord s.draws)), draws := s.draws + 1 } := by
  obtain ⟨hoff, h4⟩ := Reg.aligned ha
  have hfree : ∀ free, b.readOffset s.params r.offset free = keepLow (r.width s.params) free := by
    simp [Block.readOffset, hv]
  refine ⟨?_, by simp [State.busRead_eq h h4, Block.readsDraw, hoff, hv]⟩
  rw [hoff, hfree]
  exact keepLow_lt (r.width_le hp) _

/-- A read at a reserved offset returns 0 (R17). -/
theorem State.busRead_reserved (h4 : (addr - b.regBase) % 4 = 0) (ha : b.regBase + 0x24 ≤ addr) :
    s.busRead addr 32 = .next { s with reply := .word 0 } := by
  have hnone : Reg.atOffset (addr - b.regBase) = none := Reg.atOffset_none (by omega)
  simp [State.busRead_eq h h4, Block.readOffset, Block.readsDraw, hnone]

end

/-- A write to a read-only register changes nothing (R17). -/
theorem Block.writeOffset_readOnly (p : Params) (b : Block) {r : Reg} (hr : r = .status ∨ r = .dout ∨ r = .rlen)
    (v : Word) : b.writeOffset p r.offset v = b := by
  unfold Block.writeOffset
  split
  · rfl
  · rcases hr with rfl | rfl | rfl <;> rfl

/-- A write at a reserved offset changes nothing (R16). -/
theorem Block.writeOffset_reserved (p : Params) (b : Block) {off : Nat} (h : 0x24 ≤ off) (v : Word) :
    b.writeOffset p off v = b := by
  simp only [Block.writeOffset, Reg.atOffset_none h, ite_self]

/-- Settles O44: the write at `CMD` of an idle copy stores by `Block.accept`, and that of a running copy is dropped. -/
theorem cmdWriteAccepts : Obligations.CmdWriteAccepts := by
  intro s addr n b w h ha
  have hb : s.copy n = some b := (State.copyAt_some h).1
  refine ⟨fun hidle => ⟨_, State.busWrite_reg h hidle .cmd ha w, rfl, ?_, fun m hm => ?_⟩, fun hbusy => ?_,
    State.busRead_reg h .cmd ha rfl⟩
  · rw [State.setCopy_copy hb, if_pos rfl]
    rfl
  · rw [State.setCopy_copy hb, if_neg hm]
  · exact State.busWrite_ineffective h (Reg.aligned (r := .cmd) ha).2 (Block.writeOffset_busy hbusy _ _ w)

/-- Settles O45: each of the offsets leaves the copy alone, and so does every offset while it runs. -/
theorem ineffectiveRegisterWrites : Obligations.IneffectiveRegisterWrites := by
  intro s addr n b v h h4 hoff
  refine State.busWrite_ineffective h h4 ?_
  rcases hoff with hbusy | hoff | hoff | hoff | hoff
  · exact Block.writeOffset_busy hbusy _ _ v
  · rw [hoff]; exact Block.writeOffset_readOnly _ b (r := .status) (by simp) v
  · rw [hoff]; exact Block.writeOffset_readOnly _ b (r := .dout) (by simp) v
  · rw [hoff]; exact Block.writeOffset_readOnly _ b (r := .rlen) (by simp) v
  · exact Block.writeOffset_reserved _ b hoff v

/-- Settles O46: the rule of a register write at each of the five operand registers. -/
theorem operandWritesStore : Obligations.OperandWritesStore := by
  intro s addr n b v h hidle
  exact ⟨fun ha => State.busWrite_reg h hidle .src ha v, fun ha => State.busWrite_reg h hidle .slen ha v,
    fun ha => State.busWrite_reg h hidle .dst ha v, fun ha => State.busWrite_reg h hidle .dcap ha v,
    fun ha => State.busWrite_reg h hidle .din ha v⟩

/-- Settles O47: the rule of a register read at each register that has a value, and at the reserved offsets. -/
theorem registerReadsReturn : Obligations.RegisterReadsReturn := by
  intro s addr n b h
  exact ⟨fun ha => State.busRead_reg h .cmd ha rfl, State.busRead_reserved h, fun ha => State.busRead_reg h .status ha rfl,
    State.busRead_reg h .src, State.busRead_reg h .slen, State.busRead_reg h .dst, State.busRead_reg h .dcap,
    State.busRead_reg h .din, State.busRead_reg h .dout, State.busRead_reg h .rlen⟩

/-- Settles O48: the value is what the copy makes of the draw, at each of the seven registers by the register's width. -/
theorem unwrittenRegisterReadsFreeValue : Obligations.UnwrittenRegisterReadsFreeValue := by
  intro s addr n b hp h
  have hread := State.busRead_unwritten h hp
  refine ⟨b.readOffset s.params (addr - b.regBase) (Config.freeWord s.draws), ?_, ?_, ?_⟩
  · rintro (⟨ha, hv⟩ | ⟨ha, hv⟩)
    · exact hread .src ha hv
    · exact hread .dst ha hv
  · rintro (⟨ha, hv⟩ | ⟨ha, hv⟩ | ⟨ha, hv⟩)
    · exact hread .slen ha hv
    · exact hread .dcap ha hv
    · exact hread .rlen ha hv
  · rintro (⟨ha, hv⟩ | ⟨ha, hv⟩)
    · exact (hread .din ha hv).2
    · exact (hread .dout ha hv).2

/-- Settles O49: the port takes no access of another width or alignment. -/
theorem improperAccessesRefused : Obligations.ImproperAccessesRefused := by
  intro s addr width n b v h himproper
  have hp : properAccess b addr width = false := by
    rcases himproper with hw | h4
    · simp [properAccess, hw]
    · simp [properAccess, h4]
  simp [State.busWrite, State.busRead, h, hp]

/-! ### The copy at an address -/

/-- An address in the window of some copy selects a copy. -/
theorem State.copyAt_isSome {s : State} {n addr : Nat} {b : Block} (hb : s.copy n = some b) (hlo : b.regBase ≤ addr)
    (hhi : addr < b.regBase + windowBytes) : ∃ m c, s.copyAt addr = some (m, c) := by
  have hmem : (b, n) ∈ (s.blk :: s.others).zipIdx := by
    rw [List.mem_zipIdx_iff_getElem?, State.copies_getElem?]
    exact hb
  have hfound : s.copyAt addr ≠ none := by
    intro hnone
    rw [State.copyAt, Option.map_eq_none_iff, List.find?_eq_none] at hnone
    exact hnone _ hmem (by simp [hlo, hhi])
  obtain ⟨⟨m, c⟩, hc⟩ := Option.ne_none_iff_exists'.1 hfound
  exact ⟨m, c, hc⟩

/-- Two copies whose windows start at one address are one copy (R112). -/
theorem State.Inv.copy_eq_of_regBase {s : State} (hs : s.Inv) {n m : Nat} {b c : Block} (hb : s.copy n = some b)
    (hc : s.copy m = some c) (h : b.regBase = c.regBase) : n = m := by
  rw [← State.copies_getElem?] at hb hc
  have hbase : ((s.blk :: s.others).map Block.regBase)[n]? = ((s.blk :: s.others).map Block.regBase)[m]? := by
    rw [List.getElem?_map, List.getElem?_map, hb, hc, Option.map_some, Option.map_some, h]
  obtain ⟨hn, -⟩ := List.getElem?_eq_some_iff.1 hb
  exact (List.getElem?_inj (by simpa using hn) hs.windows).1 hbase

/-- Settles O50: aligned windows that share an address start at one address, so the copy selected is the one asked for. -/
theorem windowSelectsCopy : Obligations.WindowSelectsCopy := by
  intro s n b off hs hb hoff
  have hlt : b.regBase + off < b.regBase + windowBytes := Nat.add_lt_add_left hoff _
  obtain ⟨m, c, hat⟩ := State.copyAt_isSome hb (Nat.le_add_right _ off) hlt
  obtain ⟨hc, hlo, hhi⟩ := State.copyAt_some hat
  have hbase : b.regBase = c.regBase := by
    have hbAligned := (hs.copy hb).base
    have hcAligned := (hs.copy hc).base
    simp only [windowBytes] at hbAligned hcAligned hhi
    omega
  obtain rfl := hs.copy_eq_of_regBase hb hc hbase
  rw [hat, Option.some.inj (hb.symm.trans hc)]

end Sys2Proof.Machine
end

section
/-! The status word and the reset input (10_state.md sections 3 and 7, 70_reset_and_hazards.md section 1). -/

namespace Sys2Proof.Machine

/-- Settles O43: the four fields of the word stand at their places, and the two reserved ones are 0 (R19). -/
theorem statusWordFields : Obligations.StatusWordFields := by
  intro st
  have hbusy : (BitVec.ofBool st.busy).toNat = if st.busy then 1 else 0 := by cases st.busy <;> rfl
  have hlt : (BitVec.ofBool st.busy).toNat < 2 ^ 1 := (BitVec.ofBool st.busy).isLt
  calc st.word.toNat = ((0 * 2 ^ 4 + st.err.toNat) * 2 ^ 3 + 0) * 2 ^ 1 + (BitVec.ofBool st.busy).toNat := by
        rw [Status.word, BitVec.toNat_append, BitVec.toNat_append, BitVec.toNat_append, shl_or_toNat hlt,
          shl_or_toNat (0#3).isLt, shl_or_toNat st.err.isLt]
        rfl
    _ = st.err.toNat * 16 + (if st.busy then 1 else 0) := by rw [hbusy]; omega

/-- After reset none of the seven operand and result registers has a value (R30). -/
theorem Block.hasValue_afterReset (p : Params) (base : Nat) :
    ∀ r ∈ [Reg.src, .slen, .dst, .dcap, .din, .dout, .rlen], (Block.afterReset p base).hasValue r = false := by
  simp [Block.hasValue, Block.afterReset, Written.nothing]

theorem Block.afterReset_status_word (p : Params) (base : Nat) : (Block.afterReset p base).status.word = 0 := by
  change Status.word ⟨false, 0⟩ = 0
  decide

/-- Settles O52: the one copy of `State.reset` is a copy after reset, with the default parameters. -/
theorem resetValues : Obligations.ResetValues :=
  ⟨Block.afterReset_status_word _ 0, rfl, Block.hasValue_afterReset _ 0, rfl, rfl, rfl, rfl, rfl⟩

/-- Settles O53: an idle copy is replaced by the copy after reset at its own window, and a running one faults. -/
theorem resetInputRestores : Obligations.ResetInputRestores := by
  intro s n b hb
  refine ⟨fun hbusy => ?_, fun hidle => ?_⟩
  · simp only [State.hostReset, hb, hbusy, if_true]
  · have hreset : s.hostReset n = .next (s.setCopy n (Block.afterReset s.params b.regBase)) := by
      simp only [State.hostReset, hb, hidle, Bool.false_eq_true, if_false]
    refine ⟨_, Block.afterReset s.params b.regBase, hreset, ?_, Block.afterReset_status_word _ _, rfl, rfl,
      Block.hasValue_afterReset _ _, rfl, rfl,
      State.setCopy_mem s n _, State.setCopy_params s n _, State.setCopy_program s n _, fun m hm => ?_⟩
    · rw [State.setCopy_copy hb, if_pos rfl]
    · rw [State.setCopy_copy hb, if_neg hm]

end Sys2Proof.Machine
end

section
/-! The regions of the data memory (20_memory.md sections 3 and 4): where commands write and what they read, when a command's two
regions overlap, and what the host's accesses find while commands run. -/

namespace Sys2Proof.Machine

/-! ### The two commands that store a result -/

/-- What `ENCODE` and `DECODE` make of the outcome of their checks: the error, the fault of R43, or the result stored with its
length in `RLEN` (R74, R88). -/
def State.endStore (s : State) : Except ErrorKind (List Byte) → Host.Outcome State Fault Refusal
  | .error e => .next (s.raiseError e)
  | .ok out =>
    if s.blk.srcRegion.overlaps s.blk.dstRegion then .fault .overlappingRegions
    else .next ((s.storeResult out).setRlen out.length).complete

theorem exec_encode (s : State) : exec .encode s = s.endStore s.encodeOutput := by
  cases hout : s.encodeOutput with
  | error e => simp only [exec, execEncode, hout, State.endStore]
  | ok out =>
    obtain ⟨-, -, -, -, hlen⟩ := State.encodeOutput_ok hout
    simp only [exec, execEncode, hout, State.endStore, hlen]

theorem exec_decode (s : State) : exec .decode s = s.endStore s.decodeOutput := by
  cases hout : s.decodeOutput with
  | error e => simp only [exec, execDecode, hout, State.endStore]
  | ok out => simp only [exec, execDecode, hout, State.endStore]

/-- Regions with a common byte stop the command once its checks have passed (R43). -/
theorem State.endStore_ok_of_overlap {s : State} (h : ¬ s.blk.RegionsDisjoint) (out : List Byte) :
    s.endStore (.ok out) = .fault .overlappingRegions := by
  have hov : s.blk.srcRegion.overlaps s.blk.dstRegion = true := by
    rwa [← Block.overlaps_eq_false, Bool.not_eq_false] at h
  exact if_pos hov

/-- Regions without a common byte let it store its result. -/
theorem State.endStore_ok_of_disjoint {s : State} (h : s.blk.RegionsDisjoint) (out : List Byte) :
    s.endStore (.ok out) = .next ((s.storeResult out).setRlen out.length).complete := by
  rw [State.endStore, s.blk.overlaps_eq_false.2 h, if_neg Bool.false_ne_true]

/-- The fault comes exactly where the checks have passed and the regions have a common byte (R43). -/
theorem State.endStore_fault_iff {s : State} {o : Except ErrorKind (List Byte)} :
    s.endStore o = .fault .overlappingRegions ↔ (∃ out, o = .ok out) ∧ ¬ s.blk.RegionsDisjoint := by
  cases o with
  | error e => simp [State.endStore]
  | ok out =>
    by_cases hdis : s.blk.RegionsDisjoint
    · simp [State.endStore_ok_of_disjoint hdis, hdis]
    · simp [State.endStore_ok_of_overlap hdis, hdis]

theorem State.endStore_next_or_fault (s : State) (o : Except ErrorKind (List Byte)) :
    (∃ t, s.endStore o = .next t) ∨ (s.endStore o = .fault .overlappingRegions ∧ ¬ s.blk.RegionsDisjoint) := by
  cases o with
  | error e => exact .inl ⟨_, rfl⟩
  | ok out =>
    by_cases hdis : s.blk.RegionsDisjoint
    · exact .inl ⟨_, State.endStore_ok_of_disjoint hdis out⟩
    · exact .inr ⟨State.endStore_ok_of_overlap hdis out, hdis⟩

/-- The checks of `ENCODE` pass exactly when both regions fit and the encoded text has room (R74). -/
theorem State.encodeOutput_ok_iff {s : State} :
    (∃ out, s.encodeOutput = .ok out) ↔
      s.SrcFits ∧ s.DstFits ∧ encodedLength s.blk.slen.toNat ≤ s.blk.dcap.toNat := by
  constructor
  · rintro ⟨out, hout⟩
    obtain ⟨hsrc, hdst, hcap, -, -⟩ := State.encodeOutput_ok hout
    exact ⟨hsrc, hdst, hcap⟩
  · rintro ⟨hsrc, hdst, hcap⟩
    refine ⟨encodeBytes s.blk.alphabetLut s.sourceBytes, ?_⟩
    simp [State.encodeOutput, s.srcOk_iff.2 hsrc, s.dstOk_iff.2 hdst, hcap]

/-- The checks of `DECODE` pass exactly when both regions fit and the text decodes to bytes that have room (R88). -/
theorem State.decodeOutput_ok_iff {s : State} {out : List Byte} :
    s.decodeOutput = .ok out ↔
      s.SrcFits ∧ s.DstFits ∧ decodeBytes s.blk.inverseLut s.sourceBytes = .ok out ∧ out.length ≤ s.blk.dcap.toNat := by
  refine ⟨State.decodeOutput_ok, ?_⟩
  rintro ⟨hsrc, hdst, hdec, hcap⟩
  simp [State.decodeOutput, s.srcOk_iff.2 hsrc, s.dstOk_iff.2 hdst, hdec, hcap]

/-- Settles O33: the fault is the checks passed with a byte in common, and the checks are those of each command. -/
theorem overlapFaults : Obligations.OverlapFaults := by
  intro s
  rw [exec_encode, exec_decode, State.endStore_fault_iff, State.endStore_fault_iff, State.encodeOutput_ok_iff]
  simp only [State.decodeOutput_ok_iff]
  refine ⟨by simp only [and_assoc], ?_, ?_⟩
  · rintro ⟨⟨out, hsrc, hdst, hdec, hcap⟩, hov⟩
    exact ⟨hsrc, hdst, hov, out, hdec, hcap⟩
  · rintro ⟨hsrc, hdst, hov, out, hdec, hcap⟩
    exact ⟨⟨out, hsrc, hdst, hdec, hcap⟩, hov⟩

/-! ### The commands that store no result -/

@[simp] theorem State.decodeGroup_mem (s : State) (final : Bool) : (s.decodeGroup final).mem = s.mem := by
  unfold State.decodeGroup
  split <;> rfl

theorem execEnclen_next (s : State) : ∃ t, execEnclen s = .next t ∧ t.mem = s.mem := by
  unfold execEnclen
  split <;> exact ⟨_, rfl, rfl⟩

theorem execDeclen_next (s : State) : ∃ t, execDeclen s = .next t ∧ t.mem = s.mem := by
  unfold execDeclen
  split
  · exact ⟨_, rfl, rfl⟩
  · split
    · exact ⟨_, rfl, rfl⟩
    · split <;> exact ⟨_, rfl, rfl⟩

/-- A command that stores no result answers a next state whatever the registers hold, and leaves memory alone (R32). -/
theorem exec_next_of_not_storesResult {i : Instr} (hi : storesResult i = false) (s : State) :
    ∃ t, exec i s = .next t ∧ t.mem = s.mem := by
  cases i with
  | encode | decode => cases hi
  | enclen => exact execEnclen_next s
  | declen => exact execDeclen_next s
  | decblk0 | decblk1 => exact ⟨_, rfl, s.decodeGroup_mem _⟩
  | alut | ilut | encblk1 | encblk2 | encblk3 | illegal => exact ⟨_, rfl, rfl⟩

theorem storesResult_iff {i : Instr} : storesResult i = true ↔ i = .encode ∨ i = .decode := by
  cases i <;> simp [storesResult]

/-- A command that stores a result is the end of its checks. -/
theorem exec_of_storesResult {i : Instr} (hi : storesResult i = true) (s : State) : ∃ o, exec i s = s.endStore o := by
  rcases storesResult_iff.1 hi with rfl | rfl
  · exact ⟨_, exec_encode s⟩
  · exact ⟨_, exec_decode s⟩

/-- Settles O34: the two commands that store a result stop only on overlap, and every other one answers a next state. -/
theorem commandsStopOnlyOnOverlap : Obligations.CommandsStopOnlyOnOverlap := by
  intro i s
  cases hi : storesResult i with
  | false =>
    obtain ⟨t, ht, -⟩ := exec_next_of_not_storesResult hi s
    exact .inl ⟨t, ht⟩
  | true =>
    obtain ⟨o, ho⟩ := exec_of_storesResult hi s
    rw [ho]
    exact (s.endStore_next_or_fault o).imp_right fun ⟨hfault, hov⟩ => ⟨hfault, storesResult_iff.1 hi, hov⟩

/-! ### Where a command writes -/

/-- Where the end of a command changes a byte, by the `RLEN` it leaves: that register holds the length of the result stored,
which `DCAP` bounds and `LEN_W` bits therefore hold (R24, R39). -/
theorem State.Ends.read_ne {s t : State} {a : Nat} (hs : s.Inv) (h : s.Ends t) (ha : t.mem.read a ≠ s.mem.read a) :
    s.blk.dst.toNat ≤ a ∧ a < s.blk.dst.toNat + t.blk.rlen.toNat
    ∧ t.blk.rlen.toNat ≤ s.blk.dcap.toNat ∧ s.blk.RegionsDisjoint := by
  cases h with
  | stored out _ hcap hdis =>
    have hrlen : (keepLow s.params.lenW (BitVec.ofNat 32 out.length)).toNat = out.length :=
      keepLow_ofNat hs.legal.lenMax (Nat.lt_of_le_of_lt hcap hs.blk.dcap)
    have hin : s.blk.dst.toNat ≤ a ∧ a < s.blk.dst.toNat + out.length :=
      not_imp_comm.1 s.mem.read_writeBytes_out ha
    simp only [State.complete_eq, State.endCommand_blk_rlen, State.setRlen_blk_rlen, State.storeResult_params, hrlen]
    exact ⟨hin.1, hin.2, hcap, hdis⟩
  | failed | wroteDout | wroteBoth | wroteRlen => exact absurd rfl ha

/-- Settles O30: only a stored result changes a byte, it stays within `DCAP`, and the regions have no byte in common. -/
theorem writesStayInDestination : Obligations.WritesStayInDestination := by
  intro i s t a hs h ha
  have hi : i = .encode ∨ i = .decode := by
    rw [← storesResult_iff, ← Bool.not_eq_false]
    intro hstores
    obtain ⟨t', ht', hmem⟩ := exec_next_of_not_storesResult hstores s
    cases h.symm.trans ht'
    exact ha (by rw [hmem])
  obtain ⟨hlo, hhi, hcap, hdis⟩ := (exec_ends h).read_ne hs ha
  exact ⟨hi, hlo, hhi, hcap, fun ⟨hsrc, hsrc'⟩ => hdis a ⟨hsrc, hsrc', hlo, by omega⟩⟩

/-! ### What a command reads -/

/-- The memory `m` holds what `s` has in the source region of copy 0 (R32). -/
def State.SameSource (s : State) (m : Memory) : Prop :=
  ∀ a, s.blk.src.toNat ≤ a → a < s.blk.src.toNat + s.blk.slen.toNat → m.read a = s.mem.read a

section
variable {s : State} {m : Memory}

/-- On one copy, runs that end alike leave the same registers. -/
theorem State.EndAlike.blk {t u : State} (h : s.EndAlike { s with mem := m } t u) : u.blk = t.blk := by
  cases h <;> rfl

/-- Runs that end alike write the same bytes, each to its own memory. -/
theorem State.EndAlike.read {t u : State} (h : s.EndAlike { s with mem := m } t u) (a : Nat) :
    u.mem.read a = t.mem.read a ∨ (u.mem.read a = m.read a ∧ t.mem.read a = s.mem.read a) := by
  cases h with
  | stored out _ _ =>
    simp only [State.complete_eq, State.endCommand_mem, State.setRlen_mem, State.storeResult_mem, Memory.read_writeBytes]
    split
    · exact .inl rfl
    · exact .inr ⟨rfl, rfl⟩
  | failed | wroteDout | wroteBoth | wroteRlen => exact .inr ⟨rfl, rfl⟩

/-- The end of the two commands that store a result reads no memory: their checks have read it all. -/
theorem State.endStore_alike {t : State} {o : Except ErrorKind (List Byte)} (h : s.endStore o = .next t) :
    ∃ u, ({ s with mem := m } : State).endStore o = .next u ∧ s.EndAlike { s with mem := m } t u := by
  cases o with
  | error e => cases h; exact ⟨_, rfl, .failed e⟩
  | ok out =>
    by_cases hdis : s.blk.RegionsDisjoint
    · rw [State.endStore_ok_of_disjoint hdis] at h
      cases h
      exact ⟨_, State.endStore_ok_of_disjoint (s := { s with mem := m }) hdis out, .stored out _ rfl⟩
    · rw [State.endStore_ok_of_overlap hdis] at h
      cases h

/-- `DECBLK` reads no memory (R86). -/
theorem State.decodeGroup_alike (s : State) (m : Memory) (final : Bool) :
    s.EndAlike { s with mem := m } (s.decodeGroup final) (({ s with mem := m } : State).decodeGroup final) := by
  simp only [State.decodeGroup]
  split
  · exact .failed _
  · exact .wroteBoth _ _

/-- `ENCLEN` reads no memory (R94). -/
theorem execEnclen_alike {t : State} (h : execEnclen s = .next t) :
    ∃ u, execEnclen { s with mem := m } = .next u ∧ s.EndAlike { s with mem := m } t u := by
  simp only [execEnclen] at h ⊢
  split at h
  · next hlong => cases h; rw [if_pos hlong]; exact ⟨_, rfl, .failed _⟩
  · next hlong => cases h; rw [if_neg hlong]; exact ⟨_, rfl, .wroteRlen _⟩

variable (hm : s.SameSource m)
include hm

theorem State.SameSource.sourceBytes : ({ s with mem := m } : State).sourceBytes = s.sourceBytes :=
  Memory.readBytes_congr fun j hj => hm _ (Nat.le_add_right _ j) (Nat.add_lt_add_left hj _)

theorem State.SameSource.encodeOutput : ({ s with mem := m } : State).encodeOutput = s.encodeOutput := by
  unfold State.encodeOutput
  rw [hm.sourceBytes]
  rfl

theorem State.SameSource.decodeOutput : ({ s with mem := m } : State).decodeOutput = s.decodeOutput := by
  unfold State.decodeOutput
  rw [hm.sourceBytes]
  rfl

/-- The last two bytes of a text that is not empty lie in it (R95). -/
theorem State.SameSource.lengthFromTail (h2 : 2 ≤ s.blk.slen.toNat) :
    Machine.lengthFromTail m s.blk.src.toNat s.blk.slen.toNat
      = Machine.lengthFromTail s.mem s.blk.src.toNat s.blk.slen.toNat := by
  unfold Machine.lengthFromTail
  rw [hm (s.blk.src.toNat + s.blk.slen.toNat - 2) (by omega) (by omega),
    hm (s.blk.src.toNat + s.blk.slen.toNat - 1) (by omega) (by omega)]

/-- `DECLEN` reads the last two bytes of the source alone (R95). -/
theorem execDeclen_alike {t : State} (h : execDeclen s = .next t) :
    ∃ u, execDeclen { s with mem := m } = .next u ∧ s.EndAlike { s with mem := m } t u := by
  have hok : ({ s with mem := m } : State).srcOk = s.srcOk := rfl
  simp only [execDeclen, hok] at h ⊢
  split at h
  · next hrange => cases h; rw [if_pos hrange]; exact ⟨_, rfl, .failed _⟩
  · next hrange =>
    rw [if_neg hrange]
    split at h
    · next hlen => cases h; rw [if_pos hlen]; exact ⟨_, rfl, .failed _⟩
    · next hlen =>
      rw [if_neg hlen]
      split at h
      · next hzero => cases h; rw [if_pos hzero]; exact ⟨_, rfl, .wroteRlen _⟩
      · next hzero =>
        cases h
        rw [if_neg hzero, hm.lengthFromTail (by omega)]
        exact ⟨_, rfl, .wroteRlen _⟩

/-- A command's outcome comes from the source region, whatever the rest of memory holds (R39): on another memory with the same
source it ends alike. -/
theorem exec_alike {i : Instr} {t : State} (h : exec i s = .next t) :
    ∃ u, exec i { s with mem := m } = .next u ∧ s.EndAlike { s with mem := m } t u := by
  cases i with
  | encode =>
    rw [exec_encode] at h ⊢
    rw [hm.encodeOutput]
    exact State.endStore_alike h
  | decode =>
    rw [exec_decode] at h ⊢
    rw [hm.decodeOutput]
    exact State.endStore_alike h
  | enclen => exact execEnclen_alike h
  | declen => exact execDeclen_alike hm h
  | decblk0 | decblk1 => cases h; exact ⟨_, rfl, s.decodeGroup_alike m _⟩
  | alut | ilut => cases h; exact ⟨_, rfl, .wroteDout _⟩
  | encblk1 | encblk2 | encblk3 => cases h; exact ⟨_, rfl, .wroteBoth _ _⟩
  | illegal => cases h; exact ⟨_, rfl, .failed _⟩

end

/-- Settles O31: the two runs end alike, so their registers are the same and each byte is written in both or in neither. -/
theorem readsStayInSource : Obligations.ReadsStayInSource := by
  intro i s t m hm h
  obtain ⟨u, hu, halike⟩ := exec_alike hm h
  exact ⟨u, hu, halike.blk, halike.read⟩

/-! ### The host's accesses to memory -/

section
variable {s : State} {a : Nat}

theorem State.inBusySrc_iff : s.inBusySrc a = true ↔
    ∃ b ∈ s.blk :: s.others, b.status.busy = true ∧ b.srcRegion.contains a = true := by
  simp only [State.inBusySrc, List.any_eq_true, Bool.and_eq_true]

theorem State.inBusyDst_iff : s.inBusyDst a = true ↔
    ∃ b ∈ s.blk :: s.others, b.status.busy = true ∧ b.dstRegion.contains a = true := by
  simp only [State.inBusyDst, List.any_eq_true, Bool.and_eq_true]

/-- Outside the source regions of all running copies. -/
theorem State.inBusySrc_eq_false
    (h : ∀ b ∈ s.blk :: s.others, b.status.busy = true → b.srcRegion.contains a = false) : s.inBusySrc a = false := by
  rw [← Bool.not_eq_true, State.inBusySrc_iff]
  rintro ⟨b, hb, hbusy, hin⟩
  exact absurd hin (by simp [h b hb hbusy])

/-- Outside the destination regions of all running copies. -/
theorem State.inBusyDst_eq_false
    (h : ∀ b ∈ s.blk :: s.others, b.status.busy = true → b.dstRegion.contains a = false) : s.inBusyDst a = false := by
  rw [← Bool.not_eq_true, State.inBusyDst_iff]
  rintro ⟨b, hb, hbusy, hin⟩
  exact absurd hin (by simp [h b hb hbusy])

variable (ha : a < 2 ^ s.params.addrW)
include ha

theorem State.hostMemWrite_in_range (v : Byte) : s.hostMemWrite a v =
    if s.inBusySrc a || s.inBusyDst a then .fault .hostWriteWhileBusy else .next { s with mem := s.mem.write a v } :=
  if_neg (Nat.not_le.2 ha)

theorem State.hostMemRead_in_range : s.hostMemRead a =
    if s.inBusyDst a then .next { s with reply := .byte (Config.freeByte s.draws), draws := s.draws + 1 }
    else .next { s with reply := .byte (s.mem.read a) } :=
  if_neg (Nat.not_le.2 ha)

end

/-- Settles O51: on an address of the data memory the accesses ask for the regions of the running copies alone, and outside them
they are the memory's own write and read. -/
theorem hostMemoryAccesses : Obligations.HostMemoryAccesses := by
  intro s a v ha
  rw [State.hostMemWrite_in_range ha, State.hostMemRead_in_range ha]
  refine ⟨?_, fun hfree => ?_, fun hbusy => ?_, fun hfree => ?_⟩
  · rintro ⟨b, hb, hbusy, hin⟩
    refine if_pos (Bool.or_eq_true_iff.2 (hin.imp (fun hsrc => ?_) (fun hdst => ?_)))
    · exact State.inBusySrc_iff.2 ⟨b, hb, hbusy, hsrc⟩
    · exact State.inBusyDst_iff.2 ⟨b, hb, hbusy, hdst⟩
  · have hsrc : s.inBusySrc a = false := State.inBusySrc_eq_false fun b hb hbusy => (hfree b hb hbusy).1
    have hdst : s.inBusyDst a = false := State.inBusyDst_eq_false fun b hb hbusy => (hfree b hb hbusy).2
    exact ⟨{ s with mem := s.mem.write a v }, by simp [hsrc, hdst], rfl, Memory.read_write_same s.mem a v,
      fun x hx => Memory.read_write_other s.mem v hx⟩
  · exact ⟨_, if_pos (State.inBusyDst_iff.2 hbusy)⟩
  · exact if_neg (by simp [State.inBusyDst_eq_false hfree])

end Sys2Proof.Machine
end

section
/-! The command word (30_encoding.md sections 1 and 2): the formula of R50 and the table of R49 say the same of every word, and
decoding and encoding undo each other. -/

namespace Sys2Proof

open Sys2Proof.Machine

/-! ### The formula and the table -/

/-- The formula calls no word of the table illegal (R50). -/
theorem illegalWord_of_mem : ∀ w ∈ legalWords, illegalWord w = false :=
  List.forall_iff_forall_mem.1 (by decide)

/-- No word of the table decodes to the illegal row. -/
theorem decodeWord_ne_illegal_of_mem : ∀ w ∈ legalWords, decodeWord w ≠ .illegal w :=
  List.forall_iff_forall_mem.1 (by decide)

/-- Each word of the table decodes to a row that has that word (R49). -/
theorem encode_decodeWord_of_mem : ∀ w ∈ legalWords, (decodeWord w).wf = true ∧ encodeInstr (decodeWord w) = w :=
  List.forall_iff_forall_mem.1 (by decide)

/-- The formula calls illegal the words that are not in the table (R50). -/
theorem illegalWord_iff_not_mem {w : Word} : illegalWord w = true ↔ w ∉ legalWords := by
  constructor
  · exact fun h hw => Bool.false_ne_true ((illegalWord_of_mem w hw).symm.trans h)
  · exact fun hw => eq_true_of_ne_false fun h => hw (Laws.WordClass.mem_legalWords h)

/-- A word that the formula calls illegal decodes to the illegal row (R50). -/
theorem decodeWord_of_illegalWord {w : Word} (h : illegalWord w = true) : decodeWord w = .illegal w := if_pos h

/-- The words that decode to the illegal row are those that are not in the table. -/
theorem decodeWord_eq_illegal_iff {w : Word} : decodeWord w = .illegal w ↔ w ∉ legalWords := by
  constructor
  · exact fun h hw => decodeWord_ne_illegal_of_mem w hw h
  · exact fun hw => decodeWord_of_illegalWord (illegalWord_iff_not_mem.2 hw)

/-- Settles O1: the eleven rows of the table are computed, and the illegal row holds the words that decode to it. -/
theorem decodeInvertsEncode : Obligations.DecodeInvertsEncode := by
  intro i h
  cases i with
  | alut | ilut | encblk1 | encblk2 | encblk3 | encode | decblk0 | decblk1 | decode | enclen | declen => rfl
  | illegal w => exact decodeWord_of_illegalWord ((Laws.WordClass.illegal w h).2 ⟨w, rfl⟩)

/-- Settles O2: a word of the table comes back from its row, and any other word is carried by the illegal row. -/
theorem encodeInvertsDecode : Obligations.EncodeInvertsDecode := by
  intro w
  by_cases hw : w ∈ legalWords
  · exact encode_decodeWord_of_mem w hw
  · rw [decodeWord_eq_illegal_iff.2 hw]
    exact ⟨by simp [Instr.wf, hw], rfl⟩

/-- Settles O3: the table is computed row by row, and outside it every word decodes to the illegal row. -/
theorem elevenWordsAreLegal : Obligations.ElevenWordsAreLegal :=
  ⟨by decide, by decide, rfl, fun _ hw => decodeWord_eq_illegal_iff.2 hw⟩

/-! ### The formula in arithmetic -/

theorem opField_toNat (w : Word) : (opField w).toNat = w.toNat % 16 := by simp [opField]

theorem argField_toNat (w : Word) : (argField w).toNat = w.toNat / 16 % 4 := by
  simp [argField, Nat.shiftRight_eq_div_pow]

theorem rsvField_toNat (w : Word) : (rsvField w).toNat = w.toNat / 64 := by
  have := w.isLt
  simp [rsvField, Nat.shiftRight_eq_div_pow]
  omega

theorem argField_bit_one (w : Word) : (argField w).getLsbD 1 = decide (w.toNat / 32 % 2 = 1) := by
  rw [BitVec.getLsbD, argField_toNat, Nat.testBit_eq_decide_div_mod_eq]
  exact decide_eq_decide.2 (by omega)

/-- The five clauses of R50, in arithmetic on the word. -/
theorem illegalWord_iff {w : Word} : illegalWord w = true ↔
    w.toNat / 64 ≠ 0
    ∨ w.toNat % 16 = 0 ∨ 9 ≤ w.toNat % 16
    ∨ (w.toNat % 16 = 3 ∧ w.toNat / 16 % 4 = 0)
    ∨ (w.toNat % 16 = 5 ∧ w.toNat / 32 % 2 = 1)
    ∨ (w.toNat % 16 ∈ [1, 2, 4, 6, 7, 8] ∧ w.toNat / 16 % 4 ≠ 0) := by
  simp only [illegalWord, Bool.or_eq_true, Bool.and_eq_true, bne_iff_ne, beq_iff_eq, List.contains_eq_mem, decide_eq_true_eq,
    List.mem_cons, List.not_mem_nil, or_false, ne_eq, ← BitVec.toNat_inj, opField_toNat, argField_toNat, rsvField_toNat,
    argField_bit_one,
    BitVec.ofNat_eq_ofNat, BitVec.toNat_ofNat]
  omega

/-- An error leaves its code in `STATUS.ERR` and everything else as it was (R105). -/
theorem Machine.State.failedWith_raiseError (s : State) (e : ErrorKind) : s.FailedWith (s.raiseError e) e :=
  ⟨⟨rfl, rfl, rfl⟩, (State.Ends.failed e).around, fun _ => rfl, rfl, rfl, rfl⟩

/-- Settles O4: the formula and the table are both what decoding to the illegal row says, and that row raises its error. -/
theorem illegalWordsRaiseIllegalCommand : Obligations.IllegalWordsRaiseIllegalCommand := by
  intro w
  rw [← illegalWord_iff, illegalWord_iff_not_mem, decodeWord_eq_illegal_iff]
  exact ⟨Iff.rfl, (Decidable.em (w ∈ legalWords)).symm, fun h => h.1 h.2,
    fun s => ⟨_, rfl, s.failedWith_raiseError .illegalCommand⟩⟩

end Sys2Proof
end

section
/-! Commands and `WAIT` as the host sees them (30_encoding.md sections 3 and 5): the registers a command reads, and how a wait
for it ends. -/

namespace Sys2Proof.Machine

/-- Settles O32: the command ends alike on both copies. -/
theorem commandsReadOnlyTheirOperands : Obligations.CommandsReadOnlyTheirOperands := by
  intro i s t c hagree ha hi h
  obtain ⟨u, hu, halike⟩ := exec_congr hagree ha hi h
  exact ⟨u, hu, halike.mem, halike.status, halike.dout, halike.rlen⟩

/-- `BUSY` is bit 0 of the word the host reads (R19). -/
theorem Status.word_bit_zero (st : Status) : st.word.getLsbD 0 = st.busy := by
  rw [Status.word, BitVec.getLsbD_append]
  simp

/-- A copy that runs has its command's word (R25). -/
theorem Block.Inv.pending_of_busy {p : Params} {b : Block} (h : b.Inv p) (hbusy : b.status.busy = true) :
    b.pending ≠ none := by
  rw [← Option.isSome_iff_ne_none, h.pending, hbusy]

/-- A turn of a running copy's engine ends its command, and the program is as before (R25). -/
theorem State.engineStep_ends_command {s t : State} {n : Nat} {b : Block} (h : s.engineStep n = .next t)
    (hb : s.copy n = some b) (hbusy : b.status.busy = true) (hp : b.pending ≠ none) :
    t.program = s.program ∧ ∃ c, t.copy n = some c ∧ c.status.busy = false := by
  obtain ⟨b', u, hb', -, rfl, ⟨-, hidle | hnone⟩ | ⟨w, -, -, hexec⟩⟩ := State.engineStep_next h
  all_goals cases hb.symm.trans hb'
  · exact absurd hbusy (by simp [hidle])
  · exact absurd hnone hp
  · have hends := exec_ends hexec
    refine ⟨by rw [State.focus_program, hends.around.program, State.focus_program], u.blk, ?_, hends.not_busy.1⟩
    rw [State.copy_focus_back hb hends.around.others, if_pos rfl]

/-- `WAIT` on an idle copy is the last of its reads of `STATUS` (R57). -/
theorem State.hostWait_idle {s : State} {n : Nat} {b : Block} (hb : s.copy n = some b) (hidle : b.status.busy = false) :
    s.hostWait n = .next { s with reply := .word b.status.word } := by
  simp only [State.hostWait, hb, hidle, Bool.false_eq_true, if_false]

/-- `WAIT` on a running copy gives its engine the turn and goes on waiting (R57, log entry 7). -/
theorem State.hostWait_busy {s : State} {n : Nat} {b : Block} (hb : s.copy n = some b) (hbusy : b.status.busy = true) :
    s.hostWait n = ({ s with program := .wait n :: s.program } : State).engineStep n := by
  simp only [State.hostWait, hb, hbusy, if_true]

/-- Settles O41: on an idle copy it reads `STATUS`, and on a running one it is a turn of the engine, which has a word to run. -/
theorem waitEnds : Obligations.WaitEnds := by
  intro s n b rest hs hprog hb
  have hb' (p : List HostAction) : ({ s with program := p } : State).copy n = some b := (s.copy_program p n).trans hb
  have hstep : step s = ({ s with program := rest } : State).hostWait n := by simp only [step, hprog, State.perform]
  refine ⟨fun hidle => ⟨?_, ?_⟩, fun hbusy t h => ?_⟩
  · rw [hstep, State.hostWait_idle (hb' rest) hidle]
  · rw [Status.word_bit_zero, hidle]
  · rw [hstep, State.hostWait_busy (hb' rest) hbusy] at h
    exact State.engineStep_ends_command h (hb' _) hbusy ((hs.copy hb).pending_of_busy hbusy)

end Sys2Proof.Machine
end

section
/-! The two tables and the commands that look them up (40_tables.md sections 1 to 3). -/

namespace Sys2Proof

/-! ### The inverse table -/

/-- On a 7-bit code the 8-bit extension is the table's entry (R66). -/
theorem invx_setWidth (t : InverseTable) (c : Code) : invx t (c.setWidth 8) = inverseAt t c := by
  have hle : (c.setWidth 8).toNat ≤ 0x7F := by simp; omega
  have hc : (c.setWidth 8).setWidth 7 = c := BitVec.setWidth_setWidth_of_le c (by decide)
  rw [invx, if_pos hle, hc]

/-- A symbol's code loses nothing when it is cut to the seven bits that index the inverse table (R62). -/
theorem AlphabetLegal.setWidth_code {a : AlphabetTable} (h : AlphabetLegal a) (i : Sextet) :
    (BitVec.ofNat 7 (alpha a i).toNat).setWidth 8 = alpha a i := by
  have hlt : (alpha a i).toNat < 2 ^ 7 := Nat.lt_of_le_of_lt (h.high i) (by decide)
  apply BitVec.eq_of_toNat_eq
  rw [BitVec.toNat_setWidth, BitVec.toNat_ofNat, Nat.mod_eq_of_lt hlt, Nat.mod_eq_of_lt (alpha a i).isLt]

/-- The entry of a code that is a symbol is the symbol's index (R64). -/
theorem AlphabetLegal.inverseAt_symbol {a : AlphabetTable} (h : AlphabetLegal a) {i : Sextet} {c : Code}
    (hc : alpha a i = c.setWidth 8) : (inverseAt (inverseOf a) c).toNat = i.toNat := by
  rw [← invx_setWidth, ← hc, invx_symbol h, BitVec.toNat_setWidth_of_le (by decide)]

/-- The entry of a code that is no symbol is 127 (R64). -/
theorem inverseAt_other {a : AlphabetTable} {c : Code} (hc : ¬ IsSymbol a (c.setWidth 8)) :
    (inverseAt (inverseOf a) c).toNat = 127 := by
  rw [← invx_setWidth, invx_other hc]
  rfl

/-- Settles O6: a code is a symbol, whose entry is its index, or no symbol, whose entry is the sentinel. -/
theorem inverseTableInvertsAlphabet : Obligations.InverseTableInvertsAlphabet := by
  intro a h
  have hsymbol {c : Code} (hc : IsSymbol a (c.setWidth 8)) : (inverseAt (inverseOf a) c).toNat ≤ 63 := by
    obtain ⟨i, hi⟩ := hc
    rw [h.inverseAt_symbol hi]
    exact Nat.le_of_lt_succ i.isLt
  refine ⟨fun i => h.inverseAt_symbol (h.setWidth_code i).symm, fun c => ⟨fun hle => ?_, hsymbol⟩, fun c => ?_⟩
  · by_contra hc
    rw [inverseAt_other hc] at hle
    exact absurd hle (by decide)
  · exact (Classical.em (IsSymbol a (c.setWidth 8))).imp hsymbol inverseAt_other

namespace Machine

/-! ### The table commands -/

/-- `DIN[5:0]` is `DIN` modulo 64 (R52). -/
theorem sextetLane_eq_ofNat (d : Word) : sextetLane d = BitVec.ofNat 6 d.toNat :=
  BitVec.eq_of_toNat_eq ((sextetLane_toNat d).trans (BitVec.toNat_ofNat d.toNat 6).symm)

/-- `DIN[7:0]` is `DIN` modulo 256 (R52). -/
theorem lane0_eq_ofNat (d : Word) : lane0 d = BitVec.ofNat 8 d.toNat :=
  BitVec.eq_of_toNat_eq ((lane0_toNat d).trans (BitVec.toNat_ofNat d.toNat 8).symm)

/-- A command that completes has ended with `ERR` 0 (R25). -/
theorem State.endedWith_complete (s : State) : s.complete.EndedWith 0 := ⟨rfl, rfl, rfl⟩

/-- `ALUT` ends with the looked-up symbol in `DOUT` and nothing else written (R67). -/
theorem exec_alut (s : State) : exec .alut s =
    .next (s.setDout ((alpha s.blk.alphabetLut (BitVec.ofNat 6 s.blk.din.toNat)).setWidth 32)).complete := by
  rw [← sextetLane_eq_ofNat]; rfl

/-- `ILUT` ends with the looked-up entry in `DOUT` and nothing else written (R68). -/
theorem exec_ilut (s : State) : exec .ilut s =
    .next (s.setDout ((invx s.blk.inverseLut (BitVec.ofNat 8 s.blk.din.toNat)).setWidth 32)).complete := by
  rw [← lane0_eq_ofNat]; rfl

/-- Settles O8: the end is that of a command that writes `DOUT` alone, and the symbol fits the register. -/
theorem alutLooksUpAlphabet : Obligations.AlutLooksUpAlphabet :=
  ⟨rfl, fun s => ⟨_, exec_alut s, State.endedWith_complete _, (State.Ends.wroteDout _).around, fun _ => rfl,
    BitVec.toNat_setWidth_of_le (by decide), rfl, rfl, rfl⟩⟩

/-- Settles O9: the end is that of a command that writes `DOUT` alone, and the invariant makes the copy's table the inverse of
the alphabet, so that the entry is the symbol's index or the sentinel. -/
theorem ilutLooksUpInverse : Obligations.IlutLooksUpInverse := by
  refine ⟨rfl, fun s hs => ⟨_, exec_ilut s, State.endedWith_complete _, (State.Ends.wroteDout _).around, fun _ => rfl,
    fun i hi => ?_, fun hno => ?_, rfl, rfl, rfl⟩⟩
  · rw [State.complete_eq, State.endCommand_blk_dout, State.setDout_blk_dout, hs.blk.inverseLut, ← hi,
      invx_symbol hs.legal.alphabet, BitVec.toNat_setWidth_of_le (by decide), BitVec.toNat_setWidth_of_le (by decide)]
  · rw [State.complete_eq, State.endCommand_blk_dout, State.setDout_blk_dout, hs.blk.inverseLut, invx_other hno]
    rfl

end Machine

end Sys2Proof
end

section
/-! The encoder (41_encoder.md sections 1 and 2): what a group and a buffer encode to, and how `ENCBLK` and `ENCODE` end. -/

namespace Sys2Proof.Machine

/-! ### One group -/

/-- A group of one byte: two symbols and two padding symbols (R70). -/
@[simp] theorem encGroup_one (t : AlphabetTable) (b0 b1 b2 : Byte) :
    encGroup t 1 b0 b1 b2 = ⟨alpha t (sextet0 b0), alpha t (sextet1 b0 0), padSymbol, padSymbol⟩ := rfl

/-- A group of two bytes: three symbols and one padding symbol (R70). -/
@[simp] theorem encGroup_two (t : AlphabetTable) (b0 b1 b2 : Byte) :
    encGroup t 2 b0 b1 b2 = ⟨alpha t (sextet0 b0), alpha t (sextet1 b0 b1), alpha t (sextet2 b1 0), padSymbol⟩ := rfl

/-- A group of three bytes: four symbols (R69). -/
@[simp] theorem encGroup_three (t : AlphabetTable) (b0 b1 b2 : Byte) :
    encGroup t 3 b0 b1 b2 =
      ⟨alpha t (sextet0 b0), alpha t (sextet1 b0 b1), alpha t (sextet2 b1 b2), alpha t (sextet3 b2)⟩ := rfl

/-! ### The sextets of the lanes of `DIN`

The three bytes of a group are `DIN[23:0]` (R52), and its sextets are that value cut from the most significant end (R69). -/

theorem extractLsb'_sextet_toNat (d : Word) (lo : Nat) : (d.extractLsb' lo 6).toNat = d.toNat / 2 ^ lo % 64 := by
  rw [BitVec.extractLsb'_toNat, Nat.shiftRight_eq_div_pow]

theorem sextet0_lanes (d : Word) : sextet0 (lane2 d) = d.extractLsb' 18 6 := by
  apply BitVec.eq_of_toNat_eq
  rw [sextet0_toNat, lane2_toNat, extractLsb'_sextet_toNat]
  omega

theorem sextet1_lanes (d : Word) : sextet1 (lane2 d) (lane1 d) = d.extractLsb' 12 6 := by
  apply BitVec.eq_of_toNat_eq
  rw [sextet1_toNat, lane2_toNat, lane1_toNat, extractLsb'_sextet_toNat]
  omega

theorem sextet2_lanes (d : Word) : sextet2 (lane1 d) (lane0 d) = d.extractLsb' 6 6 := by
  apply BitVec.eq_of_toNat_eq
  rw [sextet2_toNat, lane1_toNat, lane0_toNat, extractLsb'_sextet_toNat]
  omega

theorem sextet3_lanes (d : Word) : sextet3 (lane0 d) = d.extractLsb' 0 6 := by
  apply BitVec.eq_of_toNat_eq
  rw [sextet3_toNat, lane0_toNat, extractLsb'_sextet_toNat]
  omega

/-- The last sextet of a group of one byte: the byte's low two bits, and zero for the byte that is missing (R70). -/
theorem sextet1_lane_zero (d : Word) : sextet1 (lane2 d) 0 = BitVec.ofNat 6 (d.toNat / 2 ^ 16 % 4 * 16) := by
  apply BitVec.eq_of_toNat_eq
  rw [sextet1_toNat, lane2_toNat, BitVec.toNat_ofNat, show (0 : Byte).toNat = 0 from rfl]
  omega

/-- The last sextet of a group of two bytes: the second byte's low four bits, and zero for the byte that is missing (R70). -/
theorem sextet2_lane_zero (d : Word) : sextet2 (lane1 d) 0 = BitVec.ofNat 6 (d.toNat / 2 ^ 8 % 16 * 4) := by
  apply BitVec.eq_of_toNat_eq
  rw [sextet2_toNat, lane1_toNat, BitVec.toNat_ofNat, show (0 : Byte).toNat = 0 from rfl]
  omega

/-! ### `ENCBLK` -/

/-- A command that encodes a group of `k` bytes completes with the group's four symbols in `DOUT` and 4 in `RLEN`, which
every legal `LEN_W` holds (R72). -/
theorem exec_of_encodeGroup {i : Instr} {s : State} {k : Nat} {v : Word} (hi : exec i s = .next (s.encodeGroup k))
    (hp : s.params.Legal)
    (hv : (encGroup s.blk.alphabetLut k (lane2 s.blk.din) (lane1 s.blk.din) (lane0 s.blk.din)).word = v) :
    ∃ t, exec i s = .next t ∧ t.EndedWith 0 ∧ s.SameAround t ∧ s.SameMemory t ∧ t.blk.rlen.toNat = 4
      ∧ t.blk.written.dout = true ∧ t.blk.written.rlen = true ∧ t.blk.dout = v := by
  have h4 : 4 < 2 ^ s.params.lenW :=
    calc 4 < 2 ^ 3 := by decide
      _ ≤ 2 ^ s.params.lenW := Nat.pow_le_pow_right (by decide) hp.lenMin
  exact ⟨_, hi, State.endedWith_complete _, (exec_ends hi).around, fun _ => rfl, keepLow_ofNat hp.lenMax h4, rfl, rfl, hv⟩

/-- Settles O10: the three words encode a group of three, two and one bytes, whose sextets are cut from `DIN`. -/
theorem encblkEncodesOneGroup : Obligations.EncblkEncodesOneGroup := by
  refine ⟨⟨rfl, rfl, rfl⟩, fun s hp => ⟨?three, ?two, ?one⟩⟩
  case three =>
    refine exec_of_encodeGroup (k := 3) rfl hp ?_
    rw [encGroup_three, sextet0_lanes, sextet1_lanes, sextet2_lanes, sextet3_lanes]
    rfl
  case two =>
    refine exec_of_encodeGroup (k := 2) rfl hp ?_
    rw [encGroup_two, sextet0_lanes, sextet1_lanes, sextet2_lane_zero]
    rfl
  case one =>
    refine exec_of_encodeGroup (k := 1) rfl hp ?_
    rw [encGroup_one, sextet0_lanes, sextet1_lane_zero]
    rfl

/-! ### A whole buffer -/

/-- Settles O11, by induction over the groups of the first part, none of which is cut short. -/
theorem encodingIsGroupwise : Obligations.EncodingIsGroupwise := by
  intro a b c hb
  induction b using encodeBytes.induct with
  | case1 => rfl
  | case2 b0 => cases hb
  | case3 b0 b1 => cases hb
  | case4 b0 b1 b2 rest ih =>
    have hrest : rest.length % 3 = 0 := by rwa [← Nat.add_mod_right]
    simp only [List.cons_append, encodeBytes, ih hrest, List.append_assoc]

/-- An encoding is symbols of the alphabet followed by the padding that completes the last group (R70, R71). -/
theorem encodeBytes_eq_symbols_append_padding (a : AlphabetTable) (b : List Byte) :
    ∃ l, encodeBytes a b = l ++ List.replicate ((3 - b.length % 3) % 3) padSymbol ∧ ∀ c ∈ l, IsSymbol a c := by
  have hsym (i : Sextet) : IsSymbol a (alpha a i) := ⟨i, rfl⟩
  induction b using encodeBytes.induct with
  | case1 => exact ⟨[], rfl, by simp⟩
  | case2 b0 => exact ⟨[alpha a (sextet0 b0), alpha a (sextet1 b0 0)], rfl, by simp [hsym]⟩
  | case3 b0 b1 =>
    exact ⟨[alpha a (sextet0 b0), alpha a (sextet1 b0 b1), alpha a (sextet2 b1 0)], rfl, by simp [hsym]⟩
  | case4 b0 b1 b2 rest ih =>
    obtain ⟨l, hl, hsymbols⟩ := ih
    refine ⟨(encGroup a 3 b0 b1 b2).toList ++ l, ?_, ?_⟩
    · have hlen : (b0 :: b1 :: b2 :: rest).length % 3 = rest.length % 3 := Nat.add_mod_right rest.length 3
      rw [encodeBytes, hl, hlen, List.append_assoc]
    · simpa [Symbols.toList, hsym] using hsymbols

/-- In a list that ends in copies of an element it does not hold elsewhere, those copies stand at the end only. -/
theorem getD_append_replicate_eq_iff {α : Type} {l : List α} {n j : Nat} {p d : α} (hp : p ∉ l) (hj : j < l.length + n) :
    (l ++ List.replicate n p).getD j d = p ↔ l.length ≤ j := by
  rcases Nat.lt_or_ge j l.length with hlt | hge
  · rw [List.getD_append _ _ _ _ hlt, List.getD_eq_getElem _ _ hlt]
    exact iff_of_false (fun h => hp (h ▸ List.getElem_mem hlt)) (Nat.not_le_of_lt hlt)
  · rw [List.getD_append_right _ _ _ _ hge, List.getD_replicate _ (show j - l.length < n by omega)]
    exact iff_of_true rfl hge

/-- The padding symbol is no symbol of a legal alphabet (R62). -/
theorem not_isSymbol_padSymbol {a : AlphabetTable} (h : AlphabetLegal a) : ¬ IsSymbol a padSymbol := by
  rintro ⟨i, hi⟩
  exact h.noPad i hi

/-- Settles O12: the encoding is symbols, none of which is `=`, and then the padding. -/
theorem encoderLaws : Obligations.EncoderLaws := by
  intro a b ha
  obtain ⟨l, hl, hsymbols⟩ := encodeBytes_eq_symbols_append_padding a b
  have hpad : padSymbol ∉ l := fun h => not_isSymbol_padSymbol ha (hsymbols _ h)
  refine ⟨encodeBytes_length a b, Nat.mul_mod_left _ 4, fun j hj => ?_, fun c hc hne => ?_⟩
  · rw [hl, List.length_append, List.length_replicate] at hj ⊢
    rw [getD_append_replicate_eq_iff hpad hj, Nat.add_sub_cancel]
  · rw [hl, List.mem_append] at hc
    exact hc.elim (hsymbols c) fun h => absurd (List.eq_of_mem_replicate h) hne

/-! ### `ENCODE` -/

/-- Regions that do not both fit fail the first check of `ENCODE` (R74). -/
theorem State.encodeOutput_range {s : State} (h : ¬ (s.SrcFits ∧ s.DstFits)) : s.encodeOutput = .error .range := by
  rw [← State.srcOk_iff, ← State.dstOk_iff, ← Bool.and_eq_true, Bool.not_eq_true] at h
  rw [State.encodeOutput, ← Bool.not_and, h]
  rfl

/-- Too small a destination fails the second check (R74). -/
theorem State.encodeOutput_capacity {s : State} (hsrc : s.SrcFits) (hdst : s.DstFits)
    (h : s.blk.dcap.toNat < encodedLength s.blk.slen.toNat) : s.encodeOutput = .error .capacity := by
  rw [State.encodeOutput, s.srcOk_iff.2 hsrc, s.dstOk_iff.2 hdst, if_neg (by decide), if_pos h]

/-- `ENCODE` ends with the error of its checks, which only `STATUS` records (R74, R105). -/
theorem exec_encode_failedWith {s : State} {e : ErrorKind} (h : s.encodeOutput = .error e) :
    ∃ t, exec .encode s = .next t ∧ s.FailedWith t e :=
  ⟨s.raiseError e, by rw [exec_encode, h, State.endStore], s.failedWith_raiseError e⟩

/-- Settles O14: each clause is a check of `ENCODE` that fails, with those before it passed. -/
theorem encodeErrorOrder : Obligations.EncodeErrorOrder := fun _ =>
  ⟨fun h => exec_encode_failedWith (State.encodeOutput_range h),
    fun hsrc hdst h => exec_encode_failedWith (State.encodeOutput_capacity hsrc hdst h)⟩

/-- Settles O13: the checks pass, so the command stores the encoding, whose length `RLEN` holds since it is at most `DCAP`. -/
theorem encodeWritesEncoding : Obligations.EncodeWritesEncoding := by
  intro s hs hsrc hdst hcap hdis
  obtain ⟨out, hout⟩ := State.encodeOutput_ok_iff.2 ⟨hsrc, hdst, hcap⟩
  obtain ⟨-, -, -, henc, hlen⟩ := State.encodeOutput_ok hout
  have hexec : exec .encode s = .next ((s.storeResult out).setRlen out.length).complete := by
    rw [exec_encode, hout, State.endStore_ok_of_disjoint hdis]
  rw [← hlen] at hcap ⊢
  rw [← State.sourceBytes, ← hs.blk.alphabetLut, ← henc]
  exact ⟨_, hexec, State.endedWith_complete _, (exec_ends hexec).around,
    keepLow_ofNat hs.legal.lenMax (hcap.trans_lt hs.blk.dcap), fun _ hj => Memory.read_writeBytes_in _ hj,
    fun _ ha => Memory.read_writeBytes_out _ ha, rfl, rfl, rfl⟩

end Sys2Proof.Machine
end

section
/-! The decoder (42_decoder.md sections 2 to 4): which texts are well formed and what they decode to, how `DECBLK` and
`DECODE` end, and that decoding inverts encoding. -/

namespace Sys2Proof.Machine

/-! ### Well-formed texts -/

/-- A text that R99 finds nothing wrong with: symbols of the alphabet, then at most two padding symbols (R78). -/
inductive WellFormedText (a : AlphabetTable) : List Byte → Prop where
  | empty : WellFormedText a []
  | onePad : WellFormedText a [padSymbol]
  | twoPads : WellFormedText a [padSymbol, padSymbol]
  | symbol {c : Byte} {t : List Byte} (hc : IsSymbol a c) (ht : WellFormedText a t) : WellFormedText a (c :: t)

section
variable {a : AlphabetTable} {c c0 c1 c2 c3 : Byte} {t : List Byte}

/-- The padding stands in the last two places, so that what comes before them is symbols. -/
theorem wellFormedText_append_iff {l : List Byte} (h : 2 ≤ t.length) :
    WellFormedText a (l ++ t) ↔ (∀ c ∈ l, IsSymbol a c) ∧ WellFormedText a t := by
  induction l with
  | nil => simp
  | cons c l ih =>
    have hcons : WellFormedText a (c :: (l ++ t)) ↔ IsSymbol a c ∧ WellFormedText a (l ++ t) := by
      refine ⟨fun hw => ?_, fun ⟨hc, ht⟩ => .symbol hc ht⟩
      generalize hr : l ++ t = r at hw ⊢
      have hlen : 2 ≤ r.length := by rw [← hr, List.length_append]; omega
      cases hw with
      | onePad | twoPads => simp at hlen
      | symbol hc ht => exact ⟨hc, ht⟩
    rw [List.cons_append, hcons, ih, List.forall_mem_cons, and_assoc]

/-- Symbols followed by at most two padding symbols are a well-formed text. -/
theorem wellFormedText_append_padding {l : List Byte} {n : Nat} (hl : ∀ c ∈ l, IsSymbol a c) (hn : n ≤ 2) :
    WellFormedText a (l ++ List.replicate n padSymbol) := by
  induction l with
  | nil =>
    match n, hn with
    | 0, _ => exact .empty
    | 1, _ => exact .onePad
    | 2, _ => exact .twoPads
  | cons c l ih =>
    obtain ⟨hc, hl⟩ := List.forall_mem_cons.1 hl
    exact .symbol hc (ih hl)

/-- The two last places of a text: two symbols, a symbol and padding, or padding twice (R78). -/
theorem wellFormedText_pair_iff : WellFormedText a [c2, c3] ↔
    (IsSymbol a c2 ∧ IsSymbol a c3) ∨ (IsSymbol a c2 ∧ c3 = padSymbol) ∨ (c2 = padSymbol ∧ c3 = padSymbol) := by
  constructor
  · intro h
    cases h with
    | twoPads => exact .inr (.inr ⟨rfl, rfl⟩)
    | symbol h2 h =>
      cases h with
      | onePad => exact .inr (.inl ⟨h2, rfl⟩)
      | symbol h3 _ => exact .inl ⟨h2, h3⟩
  · rintro (⟨h2, h3⟩ | ⟨h2, rfl⟩ | ⟨rfl, rfl⟩)
    · exact .symbol h2 (.symbol h3 .empty)
    · exact .symbol h2 .onePad
    · exact .twoPads

/-- The final group of a text (R78, R81). -/
theorem wellFormedText_group_iff : WellFormedText a [c0, c1, c2, c3] ↔ IsSymbol a c0 ∧ IsSymbol a c1 ∧
    ((IsSymbol a c2 ∧ IsSymbol a c3) ∨ (IsSymbol a c2 ∧ c3 = padSymbol) ∨ (c2 = padSymbol ∧ c3 = padSymbol)) := by
  have h : WellFormedText a ([c0, c1] ++ [c2, c3]) ↔ _ := wellFormedText_append_iff (Nat.le_refl 2)
  rw [← wellFormedText_pair_iff]
  simpa [and_assoc] using h

/-! ### The words of R99 -/

/-- No symbol is the padding symbol (R62). -/
theorem symbol_ne_padSymbol (ha : AlphabetLegal a) (hc : IsSymbol a c) : c ≠ padSymbol :=
  fun h => not_isSymbol_padSymbol ha (h ▸ hc)

/-- A text that begins with a symbol has what R99 rejects exactly when the rest has. -/
theorem malformed_symbol_iff (ha : AlphabetLegal a) (hc : IsSymbol a c) : Malformed a (c :: t) ↔ Malformed a t := by
  have hpad := symbol_ne_padSymbol ha hc
  refine or_congr ?_ (or_congr ?_ ?_)
  · simp [hc]
  · constructor
    · rintro ⟨j, k, hjk, hk, hj, hne⟩
      obtain ⟨k, rfl⟩ := Nat.exists_eq_succ_of_ne_zero (show k ≠ 0 by omega)
      match j with
      | 0 => exact absurd hj hpad
      | j + 1 => exact ⟨j, k, Nat.lt_of_succ_lt_succ hjk, Nat.lt_of_succ_lt_succ hk, hj, hne⟩
    · rintro ⟨j, k, hjk, hk, hj, hne⟩
      exact ⟨j + 1, k + 1, Nat.succ_lt_succ hjk, Nat.succ_lt_succ hk, hj, hne⟩
  · rw [List.count_cons_of_ne hpad]

/-- Padding symbols alone are malformed only when there are more than two (R99). -/
theorem malformed_replicate_padSymbol {n : Nat} (h : Malformed a (List.replicate n padSymbol)) : 2 < n := by
  rcases h with ⟨c, hc, hne, -⟩ | ⟨j, k, -, hk, -, hne⟩ | h
  · exact absurd (List.eq_of_mem_replicate hc) hne
  · rw [List.length_replicate] at hk
    exact absurd (List.getD_replicate _ hk) hne
  · rwa [List.count_replicate_self] at h

/-- After a padding symbol, a text that R99 does not reject holds nothing but padding. -/
theorem eq_replicate_of_not_malformed (h : ¬ Malformed a (padSymbol :: t)) : t = List.replicate t.length padSymbol := by
  rw [List.eq_replicate_iff]
  refine ⟨rfl, fun c hc => ?_⟩
  obtain ⟨k, hk, rfl⟩ := List.mem_iff_getElem.1 hc
  by_contra hne
  refine h (.inr (.inl ⟨0, k + 1, Nat.succ_pos k, Nat.succ_lt_succ hk, rfl, ?_⟩))
  rwa [List.getD_cons_succ, List.getD_eq_getElem _ _ hk]

/-- The three causes of `DecodeError` in R99 are what keeps a text from being well formed. -/
theorem malformed_iff_not_wellFormedText (ha : AlphabetLegal a) : Malformed a t ↔ ¬ WellFormedText a t := by
  constructor
  · intro hm hw
    induction hw with
    | empty => exact absurd (malformed_replicate_padSymbol (n := 0) hm) (by decide)
    | onePad => exact absurd (malformed_replicate_padSymbol (n := 1) hm) (by decide)
    | twoPads => exact absurd (malformed_replicate_padSymbol (n := 2) hm) (by decide)
    | symbol hc _ ih => exact ih ((malformed_symbol_iff ha hc).1 hm)
  · intro hw
    by_contra hm
    induction t with
    | nil => exact hw .empty
    | cons c t ih =>
      by_cases hpad : c = padSymbol
      · subst hpad
        have hcount : t.length + 1 ≤ 2 := by
          refine Nat.le_of_not_lt fun h2 => hm (.inr (.inr ?_))
          rwa [eq_replicate_of_not_malformed hm, ← List.replicate_succ, List.count_replicate_self]
        refine hw ?_
        rw [eq_replicate_of_not_malformed hm, ← List.replicate_succ]
        exact wellFormedText_append_padding (l := []) (by simp) hcount
      · have hc : IsSymbol a c := by
          by_contra hno
          exact hm (.inl ⟨c, List.mem_cons_self, hpad, hno⟩)
        exact ih (fun ht => hw (.symbol hc ht)) (mt (malformed_symbol_iff ha hc).2 hm)

/-- The texts of symbols alone are those without padding among the texts that R99 does not reject. -/
theorem forall_isSymbol_iff (ha : AlphabetLegal a) : (∀ c ∈ t, IsSymbol a c) ↔ ¬ (Malformed a t ∨ padSymbol ∈ t) := by
  constructor
  · rintro h (hm | hpad)
    · refine (malformed_iff_not_wellFormedText ha).1 hm ?_
      simpa using wellFormedText_append_padding h (Nat.zero_le 2)
    · exact symbol_ne_padSymbol ha (h _ hpad) rfl
  · intro h c hc
    by_contra hno
    exact h (.inl (.inl ⟨c, hc, fun hpad => h (.inr (hpad ▸ hc)), hno⟩))

/-! ### One group -/

@[simp] theorem isPad_iff : isPad c = true ↔ c = padSymbol := beq_iff_eq

@[simp] theorem isPad_eq_false_iff : isPad c = false ↔ c ≠ padSymbol := beq_eq_false_iff_ne

/-- A valid character is padding or a symbol (R76). -/
theorem invalidSymbol_eq_false_iff (ha : AlphabetLegal a) :
    invalidSymbol (inverseOf a) c = false ↔ c = padSymbol ∨ IsSymbol a c := by
  have hinvx : invx (inverseOf a) c = sentinel ↔ ¬ IsSymbol a c := by
    refine ⟨?_, invx_other⟩
    rintro h ⟨i, rfl⟩
    have hi := congrArg BitVec.toNat ((invx_symbol ha i).symm.trans h)
    rw [BitVec.toNat_setWidth_of_le (by decide), show sentinel.toNat = 127 from rfl] at hi
    omega
  rw [invalidSymbol, Bool.and_eq_false_iff, Bool.not_eq_false', isPad_iff, beq_eq_false_iff_ne, ne_eq, hinvx, not_not]

/-- The places of padding that R78 allows. -/
theorem wellPadded_iff {p0 p1 p2 p3 final : Bool} : wellPadded p0 p1 p2 p3 final = true ↔
    p0 = false ∧ p1 = false ∧ (p2 = true → p3 = true) ∧ (final = false → p2 = false ∧ p3 = false) := by
  revert p0 p1 p2 p3 final
  decide

/-- A group decodes exactly when its characters are valid and its padding is in its place (R81). -/
theorem decGroup_eq_ok_iff {inv : InverseTable} {final : Bool} {g : List Byte} :
    decGroup inv c0 c1 c2 c3 final = .ok g ↔
      (invalidSymbol inv c0 = false ∧ invalidSymbol inv c1 = false ∧ invalidSymbol inv c2 = false
        ∧ invalidSymbol inv c3 = false)
      ∧ wellPadded (isPad c0) (isPad c1) (isPad c2) (isPad c3) final = true
      ∧ groupBytes inv c0 c1 c2 c3 = g := by
  unfold decGroup
  split
  · next h =>
    simp only [Bool.or_eq_true] at h
    refine iff_of_false (fun h => nomatch h) fun ⟨⟨h0, h1, h2, h3⟩, _⟩ => ?_
    simp [h0, h1, h2, h3] at h
  · next h =>
    simp only [Bool.not_eq_true, Bool.or_eq_false_iff, and_assoc] at h
    split
    · next hp =>
      rw [Bool.not_eq_true'] at hp
      simp [hp]
    · next hp =>
      rw [Bool.not_eq_true', Bool.not_eq_false] at hp
      simp [h, hp]

/-- The groups that decode: four symbols, and with `F` = 1 also those whose last one or two characters are padding (R78,
R81). -/
theorem exists_decGroup_ok_iff (ha : AlphabetLegal a) {final : Bool} :
    (∃ g, decGroup (inverseOf a) c0 c1 c2 c3 final = .ok g) ↔ IsSymbol a c0 ∧ IsSymbol a c1 ∧
      ((IsSymbol a c2 ∧ IsSymbol a c3)
        ∨ (final = true ∧ ((IsSymbol a c2 ∧ c3 = padSymbol) ∨ (c2 = padSymbol ∧ c3 = padSymbol)))) := by
  simp only [decGroup_eq_ok_iff, exists_and_left, exists_eq', and_true, invalidSymbol_eq_false_iff ha, wellPadded_iff,
    isPad_iff, isPad_eq_false_iff]
  have h0 := symbol_ne_padSymbol ha (c := c0)
  have h1 := symbol_ne_padSymbol ha (c := c1)
  have h2 := symbol_ne_padSymbol ha (c := c2)
  have h3 := symbol_ne_padSymbol ha (c := c3)
  cases final <;> tauto

/-- With `F` = 1 the groups that decode are the well-formed ones (R78, R81). -/
theorem exists_decGroup_final_ok_iff (ha : AlphabetLegal a) :
    (∃ g, decGroup (inverseOf a) c0 c1 c2 c3 true = .ok g) ↔ WellFormedText a [c0, c1, c2, c3] := by
  rw [exists_decGroup_ok_iff ha, wellFormedText_group_iff]
  simp

/-- With `F` = 0 the groups that decode are those of four symbols (R78, R81). -/
theorem exists_decGroup_inner_ok_iff (ha : AlphabetLegal a) :
    (∃ g, decGroup (inverseOf a) c0 c1 c2 c3 false = .ok g) ↔ ∀ c ∈ [c0, c1, c2, c3], IsSymbol a c := by
  rw [exists_decGroup_ok_iff ha]
  simp

/-! ### A whole text -/

/-- A text decodes when its first group and its rest do (R82). -/
theorem exists_decodeGroups_group_ok_iff {inv : InverseTable} :
    (∃ r, decodeGroups inv (c0 :: c1 :: c2 :: c3 :: t) = .ok r) ↔
      (∃ g, decGroup inv c0 c1 c2 c3 t.isEmpty = .ok g) ∧ ∃ out, decodeGroups inv t = .ok out := by
  simp only [decodeGroups_group_ok]
  constructor
  · rintro ⟨r, g, out, hg, ho, -⟩
    exact ⟨⟨g, hg⟩, out, ho⟩
  · rintro ⟨⟨g, hg⟩, out, ho⟩
    exact ⟨g ++ out, g, out, hg, ho, rfl⟩

/-- Of the texts of whole groups the decoder accepts the well-formed ones (R78, R82). -/
theorem exists_decodeGroups_ok_iff (ha : AlphabetLegal a) (ht : t.length % 4 = 0) :
    (∃ r, decodeGroups (inverseOf a) t = .ok r) ↔ WellFormedText a t := by
  induction t using text_induction with
  | empty => exact iff_of_true ⟨[], rfl⟩ .empty
  | short t h0 h4 => exact absurd (List.length_eq_zero_iff.1 (by omega)) h0
  | group c0 c1 c2 c3 rest ih =>
    have hrest : rest.length % 4 = 0 := by rwa [← Nat.add_mod_right]
    rw [exists_decodeGroups_group_ok_iff]
    cases rest with
    | nil => simp [exists_decGroup_final_ok_iff ha]
    | cons c rest =>
      have hlen : 2 ≤ (c :: rest).length := by
        rw [List.length_cons] at hrest ⊢
        omega
      rw [ih hrest, List.isEmpty_cons, exists_decGroup_inner_ok_iff ha]
      exact (wellFormedText_append_iff hlen).symm

/-- In a text of whole groups the decoder's only error is `DecodeError` (R84). -/
theorem decodeGroups_error_of_whole {inv : InverseTable} {e : ErrorKind} (ht : t.length % 4 = 0)
    (h : decodeGroups inv t = .error e) : e = .decode := by
  induction t using text_induction with
  | empty => cases h
  | short t h0 h4 => exact absurd (List.length_eq_zero_iff.1 (by omega)) h0
  | group c0 c1 c2 c3 rest ih =>
    have hrest : rest.length % 4 = 0 := by rwa [← Nat.add_mod_right]
    simp only [decodeGroups] at h
    split at h
    · next hg => cases h; exact decGroup_error hg
    · split at h
      · next ho => cases h; exact ih hrest ho
      · cases h

/-- The length is checked before any group (R84). -/
theorem decodeBytes_of_broken {inv : InverseTable} (ht : t.length % 4 ≠ 0) : decodeBytes inv t = .error .length :=
  if_pos ht

theorem decodeBytes_of_whole {inv : InverseTable} (ht : t.length % 4 = 0) : decodeBytes inv t = decodeGroups inv t :=
  if_neg (not_not.2 ht)

/-- A text of whole groups that R99 does not reject decodes. -/
theorem decodeBytes_of_not_malformed (ha : AlphabetLegal a) (ht : t.length % 4 = 0) (h : ¬ Malformed a t) :
    ∃ r, decodeBytes (inverseOf a) t = .ok r := by
  rw [malformed_iff_not_wellFormedText ha, not_not, ← exists_decodeGroups_ok_iff ha ht] at h
  rwa [decodeBytes_of_whole ht]

/-- One that R99 rejects is a `DecodeError`. -/
theorem decodeBytes_of_malformed (ha : AlphabetLegal a) (ht : t.length % 4 = 0) (h : Malformed a t) :
    decodeBytes (inverseOf a) t = .error .decode := by
  rw [malformed_iff_not_wellFormedText ha, ← exists_decodeGroups_ok_iff ha ht] at h
  rw [decodeBytes_of_whole ht]
  cases hd : decodeGroups (inverseOf a) t with
  | ok r => exact absurd ⟨r, hd⟩ h
  | error e => rw [decodeGroups_error_of_whole ht hd]

/-- Settles O17: the length decides first, and of the texts of whole groups the decoder accepts those that are not
malformed. -/
theorem decoderRejectsExactlyMalformed : Obligations.DecoderRejectsExactlyMalformed := by
  intro a t ha
  have herr : t.length % 4 = 0 → ∀ e, decodeBytes (inverseOf a) t = .error e → e = .decode := fun ht e h =>
    decodeGroups_error_of_whole ht (decodeBytes_of_whole ht ▸ h)
  refine ⟨⟨fun h ht => ErrorKind.noConfusion (herr ht _ h), decodeBytes_of_broken⟩,
    fun ht => ⟨fun h => ?_, decodeBytes_of_malformed ha ht⟩, decodeBytes_of_not_malformed ha⟩
  by_contra hm
  obtain ⟨r, hr⟩ := decodeBytes_of_not_malformed ha ht hm
  rw [hr] at h
  cases h

/-! ### The decoded length -/

theorem padCount_le_one (c : Byte) : padCount c ≤ 1 := by
  unfold padCount
  split <;> decide

/-- A group emits three bytes less its padding, which only the final group has (R81). -/
theorem decGroup_length_eq {inv : InverseTable} {final : Bool} {g : List Byte}
    (h : decGroup inv c0 c1 c2 c3 final = .ok g) :
    g.length = 3 - padCount c2 - padCount c3 ∧ (final = false → g.length = 3) := by
  obtain ⟨-, hpad, rfl⟩ := decGroup_eq_ok_iff.1 h
  obtain ⟨-, -, h23, hfin⟩ := wellPadded_iff.1 hpad
  simp only [isPad_iff, isPad_eq_false_iff] at h23 hfin
  by_cases h2 : c2 = padSymbol
  · have hfinal : final ≠ false := fun hf => (hfin hf).1 h2
    simp [groupBytes, padCount, h2, h23 h2, hfinal]
  · by_cases h3 : c3 = padSymbol
    · have hfinal : final ≠ false := fun hf => (hfin hf).2 h3
      simp [groupBytes, padCount, h2, h3, hfinal]
    · simp [groupBytes, padCount, h2, h3]

/-- The length of what a text decodes to depends on its own length and its last two characters only (R85, R91). -/
theorem decodeGroups_length {inv : InverseTable} {r : List Byte} (h : decodeGroups inv t = .ok r) :
    r.length = t.length / 4 * 3 - padCount (t.getD (t.length - 2) 0) - padCount (t.getD (t.length - 1) 0) := by
  induction t using text_induction generalizing r with
  | empty => cases h; simp
  | short t h0 h4 => rw [decodeGroups_short inv h0 h4] at h; cases h
  | group c0 c1 c2 c3 rest ih =>
    obtain ⟨g, out, hg, ho, rfl⟩ := decodeGroups_group_ok.1 h
    obtain ⟨hlast, hinner⟩ := decGroup_length_eq hg
    rcases eq_or_ne rest [] with rfl | hne
    · cases ho
      simpa using hlast
    · have h4 : 4 ≤ rest.length := by
        by_contra hlt
        rw [decodeGroups_short inv hne (Nat.lt_of_not_le hlt)] at ho
        cases ho
      have hshift (j : Nat) : (c0 :: c1 :: c2 :: c3 :: rest).getD (j + 4) 0 = rest.getD j 0 := rfl
      have hp := padCount_le_one (rest.getD (rest.length - 2) 0)
      have hq := padCount_le_one (rest.getD (rest.length - 1) 0)
      rw [List.length_append, hinner (List.isEmpty_eq_false_iff.2 hne), ih ho,
        show (c0 :: c1 :: c2 :: c3 :: rest).length = rest.length + 4 from rfl,
        show rest.length + 4 - 2 = rest.length - 2 + 4 by omega, show rest.length + 4 - 1 = rest.length - 1 + 4 by omega,
        hshift, hshift]
      omega

/-- Settles O18: the length checks agree, the empty text has none of the last two characters, and any other text has the
length read off them. -/
theorem decodedLengthAgrees : Obligations.DecodedLengthAgrees := by
  intro inv t r h
  have ht : t.length % 4 = 0 := by
    by_contra ht
    rw [decodeBytes_of_broken ht] at h
    cases h
  rw [decodeBytes_of_whole ht] at h
  rw [decodedLength, if_neg (not_not.2 ht), decodeGroups_length h]
  split
  · next h0 => simp [h0]
  · rfl

end

/-! ### The bytes of a group -/

section
variable {a : AlphabetTable} (ha : AlphabetLegal a)
include ha

theorem isPad_alpha (i : Sextet) : isPad (alpha a i) = false := beq_eq_false_iff_ne.2 (ha.noPad i)

theorem invalidSymbol_alpha (i : Sextet) : invalidSymbol (inverseOf a) (alpha a i) = false :=
  (invalidSymbol_eq_false_iff ha).2 (.inr ⟨i, rfl⟩)

/-- The value of a symbol is its index (R81). -/
theorem symbolValue_alpha (i : Sextet) : symbolValue (inverseOf a) (alpha a i) = i.setWidth 8 := by
  rw [symbolValue, isPad_alpha ha, if_neg Bool.false_ne_true, invx_symbol ha]
  apply BitVec.eq_of_toNat_eq
  rw [BitVec.toNat_setWidth_of_le (by decide), BitVec.toNat_setWidth_of_le (by decide),
    BitVec.toNat_setWidth_of_le (by decide)]

/-- Four symbols decode to three bytes, with either `F` (R77). -/
theorem decGroup_symbols (i0 i1 i2 i3 : Sextet) (final : Bool) :
    decGroup (inverseOf a) (alpha a i0) (alpha a i1) (alpha a i2) (alpha a i3) final =
      .ok [decoded0 (i0.setWidth 8) (i1.setWidth 8), decoded1 (i1.setWidth 8) (i2.setWidth 8),
        decoded2 (i2.setWidth 8) (i3.setWidth 8)] := by
  rw [decGroup_eq_ok_iff]
  refine ⟨⟨invalidSymbol_alpha ha i0, invalidSymbol_alpha ha i1, invalidSymbol_alpha ha i2, invalidSymbol_alpha ha i3⟩, ?_, ?_⟩
  · simp [wellPadded_iff, isPad_alpha ha]
  · simp [groupBytes, isPad_alpha ha, symbolValue_alpha ha]

/-- Three symbols and a padding symbol decode to two bytes (R80). -/
theorem decGroup_one_pad (i0 i1 i2 : Sextet) :
    decGroup (inverseOf a) (alpha a i0) (alpha a i1) (alpha a i2) padSymbol true =
      .ok [decoded0 (i0.setWidth 8) (i1.setWidth 8), decoded1 (i1.setWidth 8) (i2.setWidth 8)] := by
  rw [decGroup_eq_ok_iff]
  refine ⟨⟨invalidSymbol_alpha ha i0, invalidSymbol_alpha ha i1, invalidSymbol_alpha ha i2, rfl⟩, ?_, ?_⟩
  · simp [wellPadded_iff, isPad_alpha ha]
  · simp [groupBytes, isPad_alpha ha, symbolValue_alpha ha]

/-- Two symbols and two padding symbols decode to one byte (R80). -/
theorem decGroup_two_pads (i0 i1 : Sextet) :
    decGroup (inverseOf a) (alpha a i0) (alpha a i1) padSymbol padSymbol true =
      .ok [decoded0 (i0.setWidth 8) (i1.setWidth 8)] := by
  rw [decGroup_eq_ok_iff]
  refine ⟨⟨invalidSymbol_alpha ha i0, invalidSymbol_alpha ha i1, rfl, rfl⟩, ?_, ?_⟩
  · simp [wellPadded_iff, isPad_alpha ha]
  · simp [groupBytes, symbolValue_alpha ha]

end

/-! ### `DECBLK` -/

/-- The lanes of a register given by its value (R52). -/
theorem lanes_of_toNat {d : Word} {c0 c1 c2 c3 : Byte}
    (h : d.toNat = ((c0.toNat * 256 + c1.toNat) * 256 + c2.toNat) * 256 + c3.toNat) :
    lane3 d = c0 ∧ lane2 d = c1 ∧ lane1 d = c2 ∧ lane0 d = c3 := by
  have h1 := c1.isLt
  have h2 := c2.isLt
  have h3 := c3.isLt
  refine ⟨?_, ?_, ?_, ?_⟩ <;> apply BitVec.eq_of_toNat_eq
  · rw [lane3_toNat]; omega
  · rw [lane2_toNat]; omega
  · rw [lane1_toNat]; omega
  · rw [lane0_toNat]; omega

/-- `DOUT` of `DECBLK`, whose top lane is zero (R53). -/
theorem packLanes_zero_toNat (d0 d1 d2 : Byte) :
    (packLanes 0 d0 d1 d2).toNat = (d0.toNat * 256 + d1.toNat) * 256 + d2.toNat := by
  rw [packLanes_toNat, show (0 : Byte).toNat = 0 from rfl, Nat.zero_mul, Nat.zero_add]

/-- A sextet's value as a byte. -/
theorem sextet_setWidth_toNat (i : Sextet) : (i.setWidth 8 : Byte).toNat = i.toNat :=
  BitVec.toNat_setWidth_of_le (by decide)

theorem sextet_setWidth_lt (i : Sextet) : (i.setWidth 8 : Byte).toNat < 64 :=
  sextet_setWidth_toNat i ▸ i.isLt

/-- A command that decodes a group completes with the group's bytes in `DOUT` and their number in `RLEN`, which every legal
`LEN_W` holds (R86). -/
theorem exec_of_decodeGroup_ok {i : Instr} {s : State} {final : Bool} {c0 c1 c2 c3 : Byte} {g : List Byte} {v n : Nat}
    (hi : exec i s = .next (s.decodeGroup final)) (hs : s.Inv)
    (hdin : s.blk.din.toNat = ((c0.toNat * 256 + c1.toNat) * 256 + c2.toNat) * 256 + c3.toNat)
    (hg : decGroup (inverseOf s.params.alphabet) c0 c1 c2 c3 final = .ok g) (hv : (packDecoded g).toNat = v)
    (hn : g.length = n) :
    ∃ t, exec i s = .next t ∧ t.EndedWith 0 ∧ s.SameAround t ∧ s.SameMemory t ∧ t.blk.dout.toNat = v ∧ t.blk.rlen.toNat = n
      ∧ t.blk.written.dout = true ∧ t.blk.written.rlen = true := by
  obtain ⟨h3, h2, h1, h0⟩ := lanes_of_toNat hdin
  have hend : s.decodeGroup final = ((s.setDout (packDecoded g)).setRlen g.length).complete := by
    rw [State.decodeGroup, hs.blk.inverseLut, h3, h2, h1, h0, hg]
  have hlen : g.length < 2 ^ s.params.lenW :=
    calc g.length ≤ 3 := decGroup_length hg
      _ < 2 ^ 3 := by decide
      _ ≤ 2 ^ s.params.lenW := Nat.pow_le_pow_right (by decide) hs.legal.lenMin
  rw [hend] at hi
  exact ⟨_, hi, State.endedWith_complete _, (exec_ends hi).around, fun _ => rfl, hv,
    (keepLow_ofNat hs.legal.lenMax hlen).trans hn, rfl, rfl⟩

/-- Settles O15: the three shapes of a group that decodes, whose bytes are its sextets cut anew. -/
theorem decblkEmitsBytes : Obligations.DecblkEmitsBytes := by
  intro s hs
  have ha := hs.legal.alphabet
  refine ⟨fun i0 i1 i2 i3 hdin op hop => ?symbols, fun i0 i1 i2 hdin => ?onePad, fun i0 i1 hdin => ?twoPads⟩
  case symbols =>
    obtain ⟨final, hi⟩ : ∃ final, exec op s = .next (s.decodeGroup final) := by
      rcases List.mem_pair.1 hop with rfl | rfl
      · exact ⟨false, rfl⟩
      · exact ⟨true, rfl⟩
    refine exec_of_decodeGroup_ok hi hs hdin (decGroup_symbols ha i0 i1 i2 i3 final) ?_ rfl
    rw [packDecoded, packLanes_zero_toNat, decoded0_toNat (sextet_setWidth_lt i0) (sextet_setWidth_lt i1),
      decoded1_toNat (sextet_setWidth_lt i2), decoded2_toNat (sextet_setWidth_lt i3)]
    simp only [sextet_setWidth_toNat]
    omega
  case onePad =>
    refine exec_of_decodeGroup_ok (c3 := padSymbol) rfl hs hdin (decGroup_one_pad ha i0 i1 i2) ?_ rfl
    rw [packDecoded, packLanes_zero_toNat, decoded0_toNat (sextet_setWidth_lt i0) (sextet_setWidth_lt i1),
      decoded1_toNat (sextet_setWidth_lt i2), show (0 : Byte).toNat = 0 from rfl]
    simp only [sextet_setWidth_toNat]
    omega
  case twoPads =>
    refine exec_of_decodeGroup_ok (c2 := padSymbol) (c3 := padSymbol) rfl hs hdin (decGroup_two_pads ha i0 i1) ?_ rfl
    rw [packDecoded, packLanes_zero_toNat, decoded0_toNat (sextet_setWidth_lt i0) (sextet_setWidth_lt i1),
      show (0 : Byte).toNat = 0 from rfl]
    simp only [sextet_setWidth_toNat]
    omega

/-- A command that decodes a group of `DIN` fails exactly when the group does not decode (R86). -/
theorem exec_of_decodeGroup {i : Instr} {s : State} {final : Bool} {P : Prop}
    (hi : exec i s = .next (s.decodeGroup final))
    (h : (∃ g, decGroup s.blk.inverseLut (lane3 s.blk.din) (lane2 s.blk.din) (lane1 s.blk.din) (lane0 s.blk.din) final
      = .ok g) ↔ ¬ P) :
    ∃ t, exec i s = .next t ∧ (P → s.FailedWith t .decode) ∧ (¬ P → t.EndedWith 0) := by
  refine ⟨_, hi, ?_⟩
  unfold State.decodeGroup
  split
  · next e he =>
    cases decGroup_error he
    refine ⟨fun _ => s.failedWith_raiseError .decode, fun hP => ?_⟩
    obtain ⟨g, hg⟩ := h.2 hP
    cases he.symm.trans hg
  · next g hg => exact ⟨fun hP => absurd hP (h.1 ⟨g, hg⟩), fun _ => State.endedWith_complete _⟩

/-- Settles O16: with `F` = 1 the groups that decode are the well-formed ones, with `F` = 0 those of four symbols. -/
theorem decblkRejectsMalformed : Obligations.DecblkRejectsMalformed := by
  rintro s hs g rfl
  have ha := hs.legal.alphabet
  refine ⟨exec_of_decodeGroup (final := true) rfl ?_, exec_of_decodeGroup (final := false) rfl ?_⟩
  · rw [hs.blk.inverseLut, exists_decGroup_final_ok_iff ha, malformed_iff_not_wellFormedText ha, not_not]
    rfl
  · rw [hs.blk.inverseLut, exists_decGroup_inner_ok_iff ha, forall_isSymbol_iff ha]
    rfl

/-! ### `DECODE` -/

/-- Regions that do not both fit fail the first check of `DECODE` (R88). -/
theorem State.decodeOutput_range {s : State} (h : ¬ (s.SrcFits ∧ s.DstFits)) : s.decodeOutput = .error .range := by
  rw [← State.srcOk_iff, ← State.dstOk_iff, ← Bool.and_eq_true, Bool.not_eq_true] at h
  rw [State.decodeOutput, ← Bool.not_and, h]
  rfl

/-- A text that does not decode fails the next check with the decoder's error (R88). -/
theorem State.decodeOutput_of_error {s : State} {e : ErrorKind} (hs : s.Inv) (hsrc : s.SrcFits) (hdst : s.DstFits)
    (h : decodeBytes (inverseOf s.params.alphabet) s.sourceBytes = .error e) : s.decodeOutput = .error e := by
  rw [State.decodeOutput, s.srcOk_iff.2 hsrc, s.dstOk_iff.2 hdst, if_neg (by decide), hs.blk.inverseLut, h]

/-- Too small a destination fails the last check (R88). -/
theorem State.decodeOutput_capacity {s : State} {out : List Byte} (hs : s.Inv) (hsrc : s.SrcFits) (hdst : s.DstFits)
    (h : decodeBytes (inverseOf s.params.alphabet) s.sourceBytes = .ok out) (hcap : s.blk.dcap.toNat < out.length) :
    s.decodeOutput = .error .capacity := by
  rw [State.decodeOutput, s.srcOk_iff.2 hsrc, s.dstOk_iff.2 hdst, if_neg (by decide), hs.blk.inverseLut, h]
  exact if_pos hcap

/-- `DECODE` ends with the error of its checks, which only `STATUS` records (R88, R105). -/
theorem exec_decode_failedWith {s : State} {e : ErrorKind} (h : s.decodeOutput = .error e) :
    ∃ t, exec .decode s = .next t ∧ s.FailedWith t e :=
  ⟨s.raiseError e, by rw [exec_decode, h, State.endStore], s.failedWith_raiseError e⟩

/-- Settles O20: each clause is a check of `DECODE` that fails, with those before it passed. -/
theorem decodeErrorOrder : Obligations.DecodeErrorOrder := by
  intro s hs
  have hwhole (h4 : s.blk.slen.toNat % 4 = 0) : s.sourceBytes.length % 4 = 0 := by rwa [State.sourceBytes_length]
  refine ⟨fun h => exec_decode_failedWith (State.decodeOutput_range h),
    fun hsrc hdst h4 => exec_decode_failedWith ?length,
    fun hsrc hdst h4 hm => exec_decode_failedWith ?malformed,
    fun hsrc hdst out hout hcap => exec_decode_failedWith ?capacity⟩
  case length =>
    exact State.decodeOutput_of_error hs hsrc hdst (decodeBytes_of_broken (by rwa [State.sourceBytes_length]))
  case malformed =>
    exact State.decodeOutput_of_error hs hsrc hdst (decodeBytes_of_malformed hs.legal.alphabet (hwhole h4) hm)
  case capacity => exact State.decodeOutput_capacity hs hsrc hdst hout hcap

/-- `DECODE` when its checks pass: the bytes are stored, and `RLEN` holds their number (R88). -/
theorem exec_decode_stores {s : State} {out : List Byte} (hout : s.decodeOutput = .ok out) (hdis : s.blk.RegionsDisjoint)
    (hw : s.params.lenW ≤ 32) (hlen : out.length < 2 ^ s.params.lenW) :
    ∃ t, exec .decode s = .next t ∧ t.EndedWith 0 ∧ s.SameAround t
      ∧ t.blk.rlen.toNat = out.length
      ∧ (∀ j, j < out.length → t.mem.read (s.blk.dst.toNat + j) = out.getD j 0)
      ∧ (∀ x, ¬ (s.blk.dst.toNat ≤ x ∧ x < s.blk.dst.toNat + out.length) → t.mem.read x = s.mem.read x)
      ∧ t.blk.dout = s.blk.dout ∧ t.blk.written.dout = s.blk.written.dout ∧ t.blk.written.rlen = true := by
  have hexec : exec .decode s = .next ((s.storeResult out).setRlen out.length).complete := by
    rw [exec_decode, hout, State.endStore_ok_of_disjoint hdis]
  exact ⟨_, hexec, State.endedWith_complete _, (exec_ends hexec).around, keepLow_ofNat hw hlen,
    fun _ hj => Memory.read_writeBytes_in _ hj, fun _ hx => Memory.read_writeBytes_out _ hx, rfl, rfl, rfl⟩

/-- Settles O19: the checks pass, and `RLEN` holds the number of bytes, since it is at most `DCAP`. -/
theorem decodeWritesBytes : Obligations.DecodeWritesBytes := by
  intro s out hs hsrc hdst hdec hcap hdis
  refine exec_decode_stores (State.decodeOutput_ok_iff.2 ⟨hsrc, hdst, ?_, hcap⟩) hdis hs.legal.lenMax
    (hcap.trans_lt hs.blk.dcap)
  rw [hs.blk.inverseLut]
  exact hdec

/-! ### Round trips -/

/-- Cutting the bytes of a group into sextets and joining those gives the bytes back (R69, R77). -/
theorem decoded0_sextets (b0 b1 : Byte) : decoded0 ((sextet0 b0).setWidth 8) ((sextet1 b0 b1).setWidth 8) = b0 := by
  apply BitVec.eq_of_toNat_eq
  rw [decoded0_toNat (sextet_setWidth_lt _) (sextet_setWidth_lt _), sextet_setWidth_toNat, sextet_setWidth_toNat,
    sextet0_toNat, sextet1_toNat]
  omega

theorem decoded1_sextets (b0 b1 b2 : Byte) :
    decoded1 ((sextet1 b0 b1).setWidth 8) ((sextet2 b1 b2).setWidth 8) = b1 := by
  apply BitVec.eq_of_toNat_eq
  rw [decoded1_toNat (sextet_setWidth_lt _), sextet_setWidth_toNat, sextet_setWidth_toNat, sextet1_toNat, sextet2_toNat]
  omega

theorem decoded2_sextets (b1 b2 : Byte) : decoded2 ((sextet2 b1 b2).setWidth 8) ((sextet3 b2).setWidth 8) = b2 := by
  apply BitVec.eq_of_toNat_eq
  rw [decoded2_toNat (sextet_setWidth_lt _), sextet_setWidth_toNat, sextet_setWidth_toNat, sextet2_toNat, sextet3_toNat]
  omega

/-- Decoding the groups of an encoding gives the bytes that were encoded (R89). -/
theorem decodeGroups_encodeBytes {a : AlphabetTable} (ha : AlphabetLegal a) (b : List Byte) :
    decodeGroups (inverseOf a) (encodeBytes a b) = .ok b := by
  induction b using encodeBytes.induct with
  | case1 => rfl
  | case2 b0 =>
    rw [encodeBytes, encGroup_one]
    refine decodeGroups_group_ok.2 ⟨_, [], decGroup_two_pads ha _ _, rfl, ?_⟩
    rw [decoded0_sextets, List.append_nil]
  | case3 b0 b1 =>
    rw [encodeBytes, encGroup_two]
    refine decodeGroups_group_ok.2 ⟨_, [], decGroup_one_pad ha _ _ _, rfl, ?_⟩
    rw [decoded0_sextets, decoded1_sextets, List.append_nil]
  | case4 b0 b1 b2 rest ih =>
    rw [encodeBytes, encGroup_three]
    refine decodeGroups_group_ok.2 ⟨_, rest, decGroup_symbols ha _ _ _ _ _, ih, ?_⟩
    rw [decoded0_sextets, decoded1_sextets, decoded2_sextets]
    rfl

/-- Decoding inverts encoding (R89). -/
theorem decodeBytes_encodeBytes {a : AlphabetTable} (ha : AlphabetLegal a) (b : List Byte) :
    decodeBytes (inverseOf a) (encodeBytes a b) = .ok b := by
  have hwhole : (encodeBytes a b).length % 4 = 0 := by
    rw [encodeBytes_length]
    exact Nat.mul_mod_left _ 4
  rw [decodeBytes_of_whole hwhole, decodeGroups_encodeBytes ha]

/-- An encoding has nothing that R99 rejects. -/
theorem encodeBytes_not_malformed {a : AlphabetTable} (ha : AlphabetLegal a) (b : List Byte) :
    ¬ Malformed a (encodeBytes a b) := by
  obtain ⟨l, hl, hsymbols⟩ := encodeBytes_eq_symbols_append_padding a b
  rw [malformed_iff_not_wellFormedText ha, not_not, hl]
  exact wellFormedText_append_padding hsymbols (Nat.le_of_lt_succ (Nat.mod_lt _ (by decide)))

/-- Settles O21: the sextets of each group are the encoder's and the decoder's; `R`, entry 17, keeps bits that no byte uses,
where `Q`, entry 16, has zeros. -/
theorem decodingInvertsEncoding : Obligations.DecodingInvertsEncoding := by
  refine ⟨fun a b ha => ⟨decodeBytes_encodeBytes ha b, decodedLengthAgrees _ _ _ (decodeBytes_encodeBytes ha b),
    encodeBytes_not_malformed ha b⟩, ?_, by decide⟩
  have hgroup : decGroup (inverseOf standardAlphabet) 0x54 0x52 padSymbol padSymbol true = .ok [0x4D] :=
    decGroup_two_pads alphabetLegal_standard 19 17
  rw [decodeBytes_of_whole rfl]
  exact decodeGroups_group_ok.2 ⟨[0x4D], [], hgroup, rfl, rfl⟩

/-- What was written is what a read of the same range gives (R37). -/
theorem Memory.readBytes_writeBytes (m : Memory) (x : Nat) (bs : List Byte) :
    (m.writeBytes x bs).readBytes x bs.length = bs := by
  refine List.ext_getElem (Memory.readBytes_length _ _ _) fun j _ hj => ?_
  rw [← List.getD_eq_getElem _ 0, ← List.getD_eq_getElem _ 0, Memory.readBytes_getD _ hj, Memory.read_writeBytes_in _ hj]

/-- An `ENCODE` that ends with `ERR` 0 has stored the encoding of its source (R74). -/
theorem exec_encode_err_zero {s t : State} (h : exec .encode s = .next t) (herr : t.blk.status.err = 0) :
    ∃ out, s.encodeOutput = .ok out ∧ t = ((s.storeResult out).setRlen out.length).complete := by
  rw [exec_encode] at h
  cases hout : s.encodeOutput with
  | error e =>
    rw [hout] at h
    cases h
    cases e <;> cases herr
  | ok out =>
    rw [hout, State.endStore] at h
    split at h
    · cases h
    · cases h
      exact ⟨out, rfl, rfl⟩

/-- `DECODE` of an encoding of `n` bytes of some memory gives those bytes back, where they have room (R88, R89). -/
theorem exec_decode_of_encoding {u : State} {m : Memory} {x n : Nat} (hp : u.params.Legal)
    (hinv : u.blk.inverseLut = inverseOf u.params.alphabet) (hsrc : u.SrcFits) (hdst : u.DstFits)
    (hdis : u.blk.RegionsDisjoint) (htext : u.sourceBytes = encodeBytes u.params.alphabet (m.readBytes x n))
    (hcap : n ≤ u.blk.dcap.toNat) (hn : n < 2 ^ u.params.lenW) :
    ∃ v, exec .decode u = .next v ∧ v.EndedWith 0 ∧ v.blk.rlen.toNat = n
      ∧ ∀ j, j < n → v.mem.read (u.blk.dst.toNat + j) = m.read (x + j) := by
  have hlen := m.readBytes_length x n
  have hdec : decodeBytes u.blk.inverseLut u.sourceBytes = .ok (m.readBytes x n) := by
    rw [hinv, htext, decodeBytes_encodeBytes hp.alphabet]
  obtain ⟨v, hv, hend, -, hrlen, hbytes, -⟩ := exec_decode_stores
    (State.decodeOutput_ok_iff.2 ⟨hsrc, hdst, hdec, hlen.trans_le hcap⟩) hdis hp.lenMax (hlen.trans_lt hn)
  refine ⟨v, hv, hend, hrlen.trans hlen, fun j hj => ?_⟩
  rw [hbytes j (hj.trans_eq hlen.symm), Memory.readBytes_getD _ hj]

/-- Settles O22: the text that `DECODE` reads is the one that `ENCODE` wrote, and it decodes to the first source. -/
theorem bufferRoundTrip : Obligations.BufferRoundTrip := by
  intro s t base cap hs hexec herr hbase hcap hdis
  obtain ⟨out, hout, rfl⟩ := exec_encode_err_zero hexec herr
  obtain ⟨-, hdst, hroom, henc, hlen⟩ := State.encodeOutput_ok hout
  rw [← hlen] at hroom
  have hrlen : (keepLow s.params.lenW (BitVec.ofNat 32 out.length)).toNat = out.length :=
    keepLow_ofNat hs.legal.lenMax (hroom.trans_lt hs.blk.dcap)
  have htext : (s.mem.writeBytes s.blk.dst.toNat out).readBytes s.blk.dst.toNat out.length
      = encodeBytes s.params.alphabet s.sourceBytes := by
    rw [Memory.readBytes_writeBytes, henc, hs.blk.alphabetLut]
  have hfits : s.blk.dst.toNat + out.length ≤ 2 ^ s.params.addrW := (Nat.add_le_add_left hroom _).trans hdst
  rw [← hrlen] at htext hfits
  exact exec_decode_of_encoding hs.legal hs.blk.inverseLut hfits hbase hdis htext hcap hs.blk.slen

end Sys2Proof.Machine
end

section
/-! The sizing helpers and their commands (43_length.md): what `decodedLength` reads, which results fit `RLEN`, and how `ENCLEN`
and `DECLEN` end. -/

namespace Sys2Proof.Machine

/-! ### The command words -/

/-- A command that takes no argument has one word: every other word with its `OP` has a bit of `ARG` or `RSV` set, which is
illegal (R49, R50). -/
theorem decodeWord_of_other_word {c w : Word} (hc : c.toNat ∈ [1, 2, 4, 6, 7, 8]) (hop : w.toNat % 16 = c.toNat)
    (hne : w ≠ c) : decodeWord w = .illegal w := by
  have hval : w.toNat ≠ c.toNat := mt BitVec.eq_of_toNat_eq hne
  have hbits : w.toNat / 64 ≠ 0 ∨ w.toNat / 16 % 4 ≠ 0 := by omega
  refine decodeWord_of_illegalWord (illegalWord_iff.2 ?_)
  rcases hbits with hrsv | harg
  · exact .inl hrsv
  · exact .inr (.inr (.inr (.inr (.inr ⟨hop ▸ hc, harg⟩))))

/-! ### `decodedLength` -/

section
variable {t u : List Byte} {m : Memory} {a n : Nat}

/-- The length is checked first (R91). -/
theorem decodedLength_of_broken (ht : t.length % 4 ≠ 0) : decodedLength t = .error .length := if_pos ht

/-- On a text of whole groups one formula holds: the empty text has no bytes that its padding could take away (R91). -/
theorem decodedLength_of_whole (ht : t.length % 4 = 0) : decodedLength t =
    .ok (t.length / 4 * 3 - padCount (t.getD (t.length - 2) 0) - padCount (t.getD (t.length - 1) 0)) := by
  rw [decodedLength, if_neg (not_not.2 ht)]
  split
  · next h0 => simp [h0]
  · rfl

theorem decodedLength_error {e : ErrorKind} (h : decodedLength t = .error e) : e = .length := by
  by_cases ht : t.length % 4 = 0
  · rw [decodedLength_of_whole ht] at h; cases h
  · rw [decodedLength_of_broken ht] at h; cases h; rfl

/-- Three bytes for each group of four are no more than the text has symbols (R93). -/
theorem decodedLength_le (h : decodedLength t = .ok n) : n ≤ t.length := by
  by_cases ht : t.length % 4 = 0
  · rw [decodedLength_of_whole ht] at h; cases h; omega
  · rw [decodedLength_of_broken ht] at h; cases h

/-- Nothing but the length and the last two symbols is read (R92). -/
theorem decodedLength_congr (hlen : t.length = u.length)
    (h2 : t.getD (t.length - 2) 0 = u.getD (u.length - 2) 0) (h1 : t.getD (t.length - 1) 0 = u.getD (u.length - 1) 0) :
    decodedLength t = decodedLength u := by
  by_cases ht : t.length % 4 = 0
  · rw [decodedLength_of_whole ht, decodedLength_of_whole (hlen ▸ ht), h2, h1, hlen]
  · rw [decodedLength_of_broken ht, decodedLength_of_broken (hlen ▸ ht)]

/-- Reading the last two bytes of a text in memory gives the decoded length of the whole text (R91, R95). -/
theorem decodedLength_readBytes (hn : n % 4 = 0) : decodedLength (m.readBytes a n) = .ok (lengthFromTail m a n) := by
  have hlen := m.readBytes_length a n
  rw [decodedLength_of_whole (hlen.symm ▸ hn), hlen, lengthFromTail]
  rcases Nat.eq_zero_or_pos n with rfl | hpos
  · simp
  · rw [Memory.readBytes_getD m (show n - 2 < n by omega), Memory.readBytes_getD m (show n - 1 < n by omega),
      ← Nat.add_sub_assoc (by omega), ← Nat.add_sub_assoc hpos]

end

/-- The character `*` lies in none of the ranges of R61. -/
theorem not_isSymbol_standard_asterisk : ¬ IsSymbol standardAlphabet 0x2A := by
  rintro ⟨i, hi⟩
  have hcode := congrArg BitVec.toNat hi
  rw [alpha_standard_toNat, show (0x2A : Byte).toNat = 42 from rfl] at hcode
  split_ifs at hcode <;> omega

/-- Settles O25: each of the four texts is rejected for one of the causes of R99, none of which `decodedLength` looks at. -/
theorem decodedLengthDoesNotValidate : Obligations.DecodedLengthDoesNotValidate := by
  have hreject {t : List Byte} (ht : t.length % 4 = 0) (hm : Malformed standardAlphabet t) :
      decodeBytes (inverseOf standardAlphabet) t = .error .decode :=
    decodeBytes_of_malformed alphabetLegal_standard ht hm
  refine ⟨by decide, by decide, by decide, by decide, ?_, fun _ _ => decodedLength_congr, fun _ _ => decodedLength_error⟩
  simp only [List.forall_mem_cons, List.not_mem_nil, false_implies, implies_true, and_true]
  refine ⟨hreject rfl ?innerPad, hreject rfl ?threePads, hreject rfl ?noSymbol, hreject rfl ?innerGroup⟩
  case innerPad => exact .inr (.inl ⟨2, 3, by decide⟩)
  case threePads => exact .inr (.inr (by decide))
  case noSymbol => exact .inl ⟨0x2A, by decide, by decide, not_isSymbol_standard_asterisk⟩
  case innerGroup => exact .inr (.inl ⟨2, 4, by decide⟩)

/-! ### `ENCLEN` and `DECLEN` -/

/-- A command that writes `RLEN` alone completes with a length that fits in it (R24). -/
theorem exec_of_setRlen {i : Instr} {s : State} {m : Nat} (hi : exec i s = .next (s.setRlen m).complete)
    (hw : s.params.lenW ≤ 32) (hm : m < 2 ^ s.params.lenW) :
    ∃ t, exec i s = .next t ∧ t.EndedWith 0 ∧ s.SameAround t ∧ s.SameMemory t ∧ t.blk.rlen.toNat = m
      ∧ t.blk.dout = s.blk.dout ∧ t.blk.written.dout = s.blk.written.dout ∧ t.blk.written.rlen = true :=
  ⟨_, hi, State.endedWith_complete _, (exec_ends hi).around, fun _ => rfl, keepLow_ofNat hw hm, rfl, rfl, rfl⟩

section
variable {s : State}

/-- `ENCLEN` when the encoded length fits (R94). -/
theorem exec_enclen_fits (h : encodedLength s.blk.slen.toNat < 2 ^ s.params.lenW) :
    exec .enclen s = .next (s.setRlen (encodedLength s.blk.slen.toNat)).complete :=
  if_neg (by omega)

/-- `ENCLEN` when it does not (R93, R94). -/
theorem exec_enclen_range (h : 2 ^ s.params.lenW ≤ encodedLength s.blk.slen.toNat) :
    ∃ t, exec .enclen s = .next t ∧ s.FailedWith t .range := by
  have hpos := Nat.two_pow_pos s.params.lenW
  exact ⟨_, if_pos (by omega), s.failedWith_raiseError .range⟩

/-- The first check of `DECLEN` (R95). -/
theorem exec_declen_range (h : ¬ s.SrcFits) : ∃ t, exec .declen s = .next t ∧ s.FailedWith t .range := by
  rw [← State.srcOk_iff, Bool.not_eq_true] at h
  exact ⟨_, if_pos (by rw [h]; rfl), s.failedWith_raiseError .range⟩

/-- `DECLEN` on a source that fits goes on to the length (R95). -/
theorem exec_declen_of_srcFits (h : s.SrcFits) : exec .declen s =
    if s.blk.slen.toNat % 4 ≠ 0 then .next (s.raiseError .length)
    else .next (s.setRlen (lengthFromTail s.mem s.blk.src.toNat s.blk.slen.toNat)).complete := by
  rw [exec, execDeclen, s.srcOk_iff.2 h, if_neg (by decide)]
  refine if_congr Iff.rfl rfl ?_
  split
  · next h0 => simp [h0, lengthFromTail]
  · rfl

/-- The second check of `DECLEN` (R95). -/
theorem exec_declen_length (h : s.SrcFits) (h4 : s.blk.slen.toNat % 4 ≠ 0) :
    ∃ t, exec .declen s = .next t ∧ s.FailedWith t .length :=
  ⟨_, (exec_declen_of_srcFits h).trans (if_pos h4), s.failedWith_raiseError .length⟩

/-- `DECLEN` when both checks pass (R95). -/
theorem exec_declen_whole (h : s.SrcFits) (h4 : s.blk.slen.toNat % 4 = 0) :
    exec .declen s = .next (s.setRlen (lengthFromTail s.mem s.blk.src.toNat s.blk.slen.toNat)).complete :=
  (exec_declen_of_srcFits h).trans (if_neg (not_not.2 h4))

end

/-- Settles O23: the two sides of the bound `2^LEN_W`. -/
theorem enclenComputesLength : Obligations.EnclenComputesLength := by
  refine ⟨rfl, fun _ => decodeWord_of_other_word (c := 0x7) (by decide), fun s hp => ?_⟩
  rw [Nat.mul_comm 4, ← encodedLength]
  exact ⟨fun h => exec_of_setRlen (exec_enclen_fits h) hp.lenMax h, exec_enclen_range⟩

/-- Settles O24: the two checks, and then the length read off the last two bytes, which is at most `SLEN` and so fits
`RLEN`. -/
theorem declenComputesLength : Obligations.DeclenComputesLength := by
  refine ⟨rfl, fun _ => decodeWord_of_other_word (c := 0x8) (by decide), fun s hs =>
    ⟨exec_declen_range, exec_declen_length, fun hsrc h4 => ?_⟩⟩
  have hdec : decodedLength (s.mem.readBytes s.blk.src.toNat s.blk.slen.toNat) = .ok _ := decodedLength_readBytes h4
  have hle := decodedLength_le hdec
  rw [Memory.readBytes_length] at hle
  obtain ⟨t, ht, hend, haround, hmem, hrlen, hkept⟩ :=
    exec_of_setRlen (exec_declen_whole hsrc h4) hs.legal.lenMax (hle.trans_lt hs.blk.slen)
  exact ⟨t, ht, hend, haround, hmem, hrlen.symm ▸ hdec, hkept⟩

/-! ### Which results fit `RLEN` -/

/-- The largest number of bytes whose encoding is at most `k` symbols: three for each whole group (R93). -/
theorem lt_encodedLength_iff {k n : Nat} : k < encodedLength n ↔ 3 * (k / 4) < n := by
  unfold encodedLength
  omega

/-- Settles O26: beyond the bound the encoded length needs more than `LEN_W` bits, and so exceeds `DCAP` too. -/
theorem resultWidths : Obligations.ResultWidths := by
  refine ⟨fun _ _ => decodedLength_le, fun _ _ => lt_encodedLength_iff, rfl, fun s hs hlong => ?_⟩
  have hwide : 2 ^ s.params.lenW ≤ encodedLength s.blk.slen.toNat := Nat.le_of_pred_lt (lt_encodedLength_iff.2 hlong)
  exact ⟨exec_enclen_range hwide, fun hsrc hdst =>
    exec_encode_failedWith (State.encodeOutput_capacity hsrc hdst (hs.blk.dcap.trans_le hwide))⟩

end Sys2Proof.Machine
end

section
/-! Errors and several copies (60_exceptions.md sections 3 and 6): what an error changes, what a turn of one copy's engine does
to the others, and when two running copies stop each other. -/

namespace Sys2Proof.Machine

/-! ### Errors -/

/-- A command that ends with a code in `STATUS.ERR` has raised an error: every other end leaves 0 there (R25, R100). -/
theorem State.Ends.raised {s t : State} (h : s.Ends t) (herr : t.blk.status.err ≠ 0) : ∃ e, t = s.raiseError e := by
  cases h with
  | failed e => exact ⟨e, rfl⟩
  | wroteDout | wroteBoth | wroteRlen | stored => exact absurd rfl herr

/-- Settles O28: a non-zero `ERR` comes from `raise` alone, which writes `STATUS` and takes the pending word. -/
theorem errorsChangeOnlyStatus : Obligations.ErrorsChangeOnlyStatus := by
  intro i s t h herr
  have hends := exec_ends h
  obtain ⟨e, rfl⟩ := hends.raised herr
  exact ⟨rfl, fun _ => rfl, hends.around⟩

/-! ### The turn of one copy's engine -/

/-- Settles O36: the turn brings the copy into focus, runs its command and puts it back, and a command leaves the other copies
and the host's side alone. -/
theorem engineActsOnItsCopy : Obligations.EngineActsOnItsCopy := by
  intro s t n b w h hb hbusy hp
  obtain ⟨b', u, hb', hf, rfl, hturn⟩ := State.engineStep_next h
  obtain rfl := Option.some.inj (hb.symm.trans hb')
  rcases hturn with ⟨-, hidle | hnone⟩ | ⟨w', -, hp', hexec⟩
  · exact absurd hbusy (by simp [hidle])
  · exact absurd hp (by simp [hnone])
  · obtain rfl := Option.some.inj (hp.symm.trans hp')
    obtain ⟨hparams, -, hothers, hprogram, hreply, hdraws⟩ := (exec_ends hexec).around
    have hcopy := State.copy_focus_back hb hothers
    refine ⟨u, hexec, hf, ?_, State.focus_mem u n, fun m hm => ?_, ?_, ?_, ?_, ?_⟩
    · rw [hcopy, if_pos rfl]
    · rw [hcopy, if_neg hm]
    · rw [State.focus_params, hparams, State.focus_params]
    · rw [State.focus_program, hprogram, State.focus_program]
    · rw [State.focus_reply, hreply, State.focus_reply]
    · rw [State.focus_draws, hdraws, State.focus_draws]

/-! ### Two running copies -/

/-- The destination region of `a` meets `b` in an address that lies in a region of `b` too. -/
theorem Block.dstMeets_iff {a b : Block} : a.dstMeets b = true ↔
    ∃ x, a.dstRegion.contains x = true ∧ (b.srcRegion.contains x = true ∨ b.dstRegion.contains x = true) := by
  simp only [Block.dstMeets, Bool.or_eq_true, Region.overlaps_iff, and_or_left, exists_or]

/-- Whether two copies stand in each other's way does not depend on the copy in focus. -/
@[simp] theorem State.copiesConflict_focus (s : State) (n : Nat) (a b : Block) :
    (s.focus n).copiesConflict a b = s.copiesConflict a b := by
  simp only [State.copiesConflict, State.runningWriter_focus]

/-- A running copy `b` is in the way of `a` when one of the two writes where the other reads or writes (R112). -/
theorem State.copiesConflict_iff {s : State} {a b : Block} : s.copiesConflict a b = true ↔
    b.status.busy = true
    ∧ ((s.runningWriter a = true ∧ a.dstMeets b = true) ∨ (s.runningWriter b = true ∧ b.dstMeets a = true)) := by
  simp only [State.copiesConflict, Bool.and_eq_true, Bool.or_eq_true]

/-- The engine stops where another running copy is in the way of its pending word (R112). -/
theorem State.engineOfBlk_conflict {s : State} {w : Word} (hbusy : s.blk.status.busy = true) (hp : s.blk.pending = some w)
    (hc : s.others.any (s.copiesConflict s.blk) = true) : s.engineOfBlk = .fault .copiesOverlap := by
  simp only [State.engineOfBlk, hbusy, hp, hc, if_true]

/-- With another copy in the way, whichever it is, the turn of a running copy's engine is a fault (R112). -/
theorem State.engineStep_conflict {s : State} {n m : Nat} {b c : Block} {w : Word} (hnm : n ≠ m) (hb : s.copy n = some b)
    (hc : s.copy m = some c) (hbusy : b.status.busy = true) (hp : b.pending = some w)
    (hconflict : s.copiesConflict b c = true) : s.engineStep n = .fault .copiesOverlap := by
  have hany : (s.focus n).others.any ((s.focus n).copiesConflict b) = true :=
    List.any_eq_true.2 ⟨c, State.mem_focus_others hb hc hnm, (s.copiesConflict_focus n b c).trans hconflict⟩
  rw [← State.focus_blk hb] at hbusy hp hany
  simp only [State.engineStep, hb, State.engineOfBlk_conflict hbusy hp hany, onNext]

/-- Settles O38: the byte in common is what makes the one that writes meet the other, so each is in the other's way. -/
theorem overlappingCopiesFault : Obligations.OverlappingCopiesFault := by
  intro s n m b c w hnm hb hc hbusy hp hcbusy hoverlap
  refine State.engineStep_conflict hnm hb hc hbusy hp (State.copiesConflict_iff.2 ⟨hcbusy, ?_⟩)
  rwa [Block.dstMeets_iff, Block.dstMeets_iff]

end Sys2Proof.Machine
end

section
/-! Runs without a further host action, and the host's handshake (70_reset_and_hazards.md sections 1 and 2): each step of an
empty program ends one running command, and `WR CMD` then `WAIT` is one execution of the command. -/

namespace Sys2Proof.Machine

/-! ### The next step, by the program -/

/-- With an empty program the step is the machine's own. -/
theorem step_of_nil {s : State} (hp : s.program = []) : step s = s.idleStep := by
  simp only [step, hp]

/-- With an action left the step performs it on the rest of the program. -/
theorem step_of_cons {s : State} {a : HostAction} {rest : List HostAction} (hp : s.program = a :: rest) :
    step s = ({ s with program := rest } : State).perform a := by
  simp only [step, hp]

/-- A run goes on from the state that its first step answers. -/
theorem run_succ_of_step {s t : State} (h : step s = .next t) (k : Nat) :
    Host.Core.run core (k + 1) s = Host.Core.run core k t := by
  have hcore : core.step s = .next t := h
  simp only [Host.Core.run, hcore]

/-! ### The first busy copy -/

/-- No copy is the first busy one exactly when every copy is idle. -/
theorem State.firstBusy_eq_none_iff {s : State} :
    s.firstBusy = none ↔ ∀ b ∈ s.blk :: s.others, b.status.busy = false :=
  List.findIdx?_eq_none_iff

/-- The first busy copy is there and is busy. -/
theorem State.firstBusy_some {s : State} {n : Nat} (h : s.firstBusy = some n) :
    ∃ b, s.copy n = some b ∧ b.status.busy = true := by
  obtain ⟨hn, hbusy, -⟩ := List.findIdx?_eq_some_iff_getElem.1 h
  exact ⟨_, (s.copies_getElem? n).symm.trans (List.getElem?_eq_getElem hn), hbusy⟩

/-! ### Running commands complete -/

/-- A turn of a running copy's engine replaces that copy, in the list of the copies, by an idle one (R25, R112). -/
theorem State.engineStep_copies {s t : State} {n : Nat} {b : Block} (h : s.engineStep n = .next t)
    (hb : s.copy n = some b) (hbusy : b.status.busy = true) (hp : b.pending ≠ none) :
    ∃ c, c.status.busy = false ∧ t.blk :: t.others = (s.blk :: s.others).set n c := by
  obtain ⟨w, hw⟩ := Option.ne_none_iff_exists'.1 hp
  obtain ⟨u, hexec, -, hsame, -, hother, -⟩ := engineActsOnItsCopy s t n b w h hb hbusy hw
  obtain ⟨hn, -⟩ := List.getElem?_eq_some_iff.1 ((s.copies_getElem? n).trans hb)
  refine ⟨u.blk, (exec_ends hexec).not_busy.1, List.ext_getElem? fun m => ?_⟩
  rw [State.copies_getElem?]
  by_cases hm : m = n
  · rw [hm, hsame, List.getElem?_set_self hn]
  · rw [hother m hm, List.getElem?_set_ne (Ne.symm hm), State.copies_getElem?]

/-- A turn of a running copy's engine leaves one busy copy fewer. -/
theorem State.engineStep_countP_busy {s t : State} {n : Nat} {b : Block} (h : s.engineStep n = .next t)
    (hb : s.copy n = some b) (hbusy : b.status.busy = true) (hp : b.pending ≠ none) :
    (t.blk :: t.others).countP (fun b => b.status.busy) + 1 = (s.blk :: s.others).countP (fun b => b.status.busy) := by
  obtain ⟨c, hidle, hcopies⟩ := State.engineStep_copies h hb hbusy hp
  obtain ⟨hn, hget⟩ := List.getElem?_eq_some_iff.1 ((s.copies_getElem? n).trans hb)
  have hpos : 0 < (s.blk :: s.others).countP (fun b => b.status.busy) :=
    List.countP_pos_iff.2 ⟨b, State.mem_copies.2 ⟨n, hb⟩, hbusy⟩
  rw [hcopies, List.countP_set hn, hget, if_pos hbusy, if_neg (by simp [hidle])]
  omega

/-- Settles O42: with every copy idle there is no turn to give, and the turn of the first busy copy ends its command. -/
theorem runningCommandsComplete : Obligations.RunningCommandsComplete := by
  intro s hs hprog
  rw [step_of_nil hprog, State.idleStep]
  refine ⟨fun hidle => ?_, fun ⟨b, hb, hbusy⟩ t h => ?_⟩
  · rw [State.firstBusy_eq_none_iff.2 hidle]
  · cases hfirst : s.firstBusy with
    | none => exact absurd hbusy (by simp [State.firstBusy_eq_none_iff.1 hfirst b hb])
    | some n =>
      rw [hfirst] at h
      obtain ⟨c, hc, hcbusy⟩ := State.firstBusy_some hfirst
      exact State.engineStep_countP_busy h hc hcbusy ((hs.copy hc).pending_of_busy hcbusy)

/-! ### The handshake -/

/-- `WR CMD` on copy 0, idle, hands the word to its engine (R18). -/
theorem State.busWrite_cmd_of_idle {s : State} (hidle : s.blk.status.busy = false) (w : Word) :
    s.busWrite s.blk.regBase 32 w = .next { s with blk := s.blk.accept w } :=
  State.busWrite_reg s.copyAt_base hidle .cmd rfl w

/-- `WAIT` on the only copy, with a command accepted, executes the command and goes on waiting (R57, log entry 7). -/
theorem step_wait_of_accepted {s : State} {w : Word} {rest : List HostAction} (hothers : s.others = [])
    (hp : s.program = .wait 0 :: rest) (hbusy : s.blk.status.busy = true) (hw : s.blk.pending = some w) :
    step s = exec (decodeWord w) s := by
  rw [step_of_cons hp, State.perform, State.hostWait_busy rfl hbusy, State.engineStep_zero, ← hp]
  exact State.engineOfBlk_run hbusy hw (by simp [hothers])

/-- `WAIT` on copy 0, idle, reads its `STATUS` and the program goes on (R57). -/
theorem step_wait_of_idle {s : State} {rest : List HostAction} (hp : s.program = .wait 0 :: rest)
    (hidle : s.blk.status.busy = false) :
    step s = .next { s with program := rest, reply := .word s.blk.status.word } := by
  rw [step_of_cons hp, State.perform, State.hostWait_idle rfl hidle]

/-- Settles O55: the write accepts the word, the first turn of `WAIT` executes it, and the second finds the copy idle and reads
the outcome. -/
theorem issueAndWait : Obligations.IssueAndWait := by
  intro s u w hothers hidle hprog hexec
  have hends := exec_ends hexec
  have hwrite : step s = .next { s with blk := s.blk.accept w, program := [.wait 0] } :=
    (step_of_cons hprog).trans (State.busWrite_cmd_of_idle (s := { s with program := [.wait 0] }) hidle w)
  have hrun : step { s with blk := s.blk.accept w, program := [.wait 0] } = .next u :=
    (step_wait_of_accepted (s := { s with blk := s.blk.accept w, program := [.wait 0] }) hothers rfl rfl rfl).trans hexec
  have hread : step u = .next { u with program := [], reply := .word u.blk.status.word } :=
    step_wait_of_idle hends.around.program hends.not_busy.1
  calc Host.Core.run core 3 s = Host.Core.run core 2 { s with blk := s.blk.accept w, program := [.wait 0] } :=
        run_succ_of_step hwrite 2
    _ = Host.Core.run core 1 u := run_succ_of_step hrun 1
    _ = Host.Core.run core 0 { u with program := [], reply := .word u.blk.status.word } := run_succ_of_step hread 0

end Sys2Proof.Machine
end

section
/-! Fixed contents of the specification: sample command words (30_encoding.md sections 1 and 2) and the default alphabet
(40_tables.md section 1). -/

namespace Sys2Proof

/-- Settles O5: the first four words are rows of the table of R49, and the other four, each off a row in `ARG` or `RSV`, are not
in it. -/
theorem sampleWordsDecode : Obligations.SampleWordsDecode := by
  obtain ⟨⟨-, hilut, -, hencblk2, -, -, -, hdecblk1, -, -, hdeclen⟩, -, -, hother⟩ := elevenWordsAreLegal
  refine ⟨hilut, hencblk2, hdecblk1, hdeclen, ?noK, ?highF, ?lowRsv, ?highRsv⟩
  case noK => exact hother 0x00000003 (by decide)
  case highF => exact hother 0x00000025 (by decide)
  case lowRsv => exact hother 0x00000044 (by decide)
  case highRsv => exact hother 0x80000004 (by decide)

/-- Settles O7: each range of R61 is a branch of the symbol's code. -/
theorem defaultAlphabetIsStandard : Obligations.DefaultAlphabetIsStandard := by
  refine ⟨alphabetLegal_standard, fun i hi => ?upper, fun i hlo hhi => ?lower, fun i hlo hhi => ?digit, ?plus, ?slash⟩
  case upper => rw [alpha_standard_toNat, if_pos (by omega)]
  case lower => rw [alpha_standard_toNat, if_neg (by omega), if_pos (by omega)]
  case digit => rw [alpha_standard_toNat, if_neg (by omega), if_neg (by omega), if_pos (by omega)]
  case plus | slash => rw [alpha_standard]; rfl

end Sys2Proof
end
